-- ==== Sys2Proof/Word.lean ====
section
/-! DEFINITION. The widths of the machine (00_scope §6 "Values and widths"): bytes, 32-bit words, 16-bit port
addresses. -/

namespace Sys2Proof

/-- A u8: a memory byte, an 8-bit register alias, a port datum. -/
abbrev Byte := BitVec 8

/-- A u32: a general register, `flags`, `pc`, a linear address. -/
abbrev Word := BitVec 32

/-- A u16: a port address (R35). -/
abbrev PortAddr := BitVec 16

end Sys2Proof
end

