-- ==== Sys2Proof/Syntax.lean ====
section
/-! DEFINITION. The instructions: one constructor of `Instr` per row of spec/opcode_table.json, with its operands as
the decoder finds them. Register names and operand forms are constructors; immediates are the bytes of the encoding,
not yet extended. -/

namespace Sys2Proof

/-- The eight 32-bit general registers in index order 0 to 7 (10_state R20). -/
inductive Reg32 where
  | eax | ecx | edx | ebx | esp | ebp | esi | edi
  deriving DecidableEq, Repr

/-- The eight 8-bit aliases in index order 0 to 7 (10_state R23). -/
inductive Reg8 where
  | al | cl | dl | bl | ah | ch | dh | bh
  deriving DecidableEq, Repr

/-- The three values of `mod` under which `rm = 4` asks for a SIB byte (30_encoding R90, R93). -/
inductive SibMode where
  | mod0 | mod1 | mod2
  deriving DecidableEq, Repr

/-- The memory forms of a ModR/M operand, one per row of 30_encoding R93 with `mod ≠ 3`. -/
inductive MemForm where
  /-- `mod = 0`, `rm` not 4 or 5: memory at `[base]`. -/
  | ind (base : Reg32)
  /-- `mod = 0`, `rm = 5`: memory at `[disp32]`, no base register. -/
  | abs (disp : Word)
  /-- `mod = 1`, `rm ≠ 4`: memory at `[base + sext(disp8)]`. -/
  | disp8 (base : Reg32) (disp : Byte)
  /-- `mod = 2`, `rm ≠ 4`: memory at `[base + disp32]`. -/
  | disp32 (base : Reg32) (disp : Word)
  /-- `mod ≠ 3`, `rm = 4`: the SIB form; the SIB byte is fetched and not interpreted (R90). -/
  | sib (mode : SibMode) (byte : Byte)
  deriving DecidableEq, Repr

/-- An rm operand: a register (`mod = 3`) or memory (40_common_operations R130). `ρ` is `Reg32` or `Reg8` by the
instruction's operand width, or the raw 3-bit field. -/
inductive Rm (ρ : Type) where
  | reg (r : ρ)
  | mem (m : MemForm)
  deriving DecidableEq, Repr

/-- One constructor per row of spec/opcode_table.json (30_encoding R100), named after the row. -/
inductive Instr where
  -- 41_register_coded_and_stack
  | pushR32 (r : Reg32)
  | popR32 (r : Reg32)
  | incR32 (r : Reg32)
  | movR32Imm32 (r : Reg32) (imm : Word)
  | movR8Imm8 (r : Reg8) (imm : Byte)
  | pushImm8 (imm : Byte)
  | pushImm32 (imm : Word)
  -- 42_opcode_groups
  | addRm32Imm8 (rm : Rm Reg32) (imm : Byte)
  | subRm32Imm8 (rm : Rm Reg32) (imm : Byte)
  | cmpRm32Imm8 (rm : Rm Reg32) (imm : Byte)
  | incRm32 (rm : Rm Reg32)
  | movRm32Imm32 (rm : Rm Reg32) (imm : Word)
  -- 43_two_operand
  | addRm32R32 (rm : Rm Reg32) (r : Reg32)
  | cmpR32Rm32 (r : Reg32) (rm : Rm Reg32)
  | movRm8R8 (rm : Rm Reg8) (r : Reg8)
  | movRm32R32 (rm : Rm Reg32) (r : Reg32)
  | movR8Rm8 (r : Reg8) (rm : Rm Reg8)
  | movR32Rm32 (r : Reg32) (rm : Rm Reg32)
  | cmpAlImm8 (imm : Byte)
  | cmpEaxImm32 (imm : Word)
  -- 44_control_transfer
  | jmpRel8 (rel : Byte)
  | jmpRel32 (rel : Word)
  | callRel32 (rel : Word)
  | ret
  | leave
  -- 45_conditional_jumps
  | jo (rel : Byte)
  | jno (rel : Byte)
  | jc (rel : Byte)
  | jnc (rel : Byte)
  | jz (rel : Byte)
  | jnz (rel : Byte)
  | js (rel : Byte)
  | jns (rel : Byte)
  | jl (rel : Byte)
  | jle (rel : Byte)
  -- 46_port_io
  | inAlDx
  | outDxAl
  deriving DecidableEq, Repr

end Sys2Proof
end

