-- ==== Sys2Proof/WellFormed.lean ====
section
/-! DEFINITION. Which instruction terms an encoding stands for: a memory form is well formed when its base register
can be named by its `mod` and `rm` fields (30_encoding R92, R93). Registers, immediates and displacements are of
the right width by their types. -/

namespace Sys2Proof

/-- R93: `rm = 4` never means base ESP (it asks for a SIB byte), and with `mod = 0`, `rm = 5` never means base EBP
(it is the absolute form). -/
def MemForm.wellFormed : MemForm → Bool
  | .ind base => base != .esp && base != .ebp
  | .abs _ => true
  | .disp8 base _ => base != .esp
  | .disp32 base _ => base != .esp
  | .sib _ _ => true

def Rm.wellFormed {ρ : Type} : Rm ρ → Bool
  | .reg _ => true
  | .mem m => m.wellFormed

/-- An instruction is well formed when its rm operand, if it has one, is. -/
def Instr.wellFormed : Instr → Bool
  | .pushR32 _ | .popR32 _ | .incR32 _ | .movR32Imm32 _ _ | .movR8Imm8 _ _ | .pushImm8 _ | .pushImm32 _ => true
  | .addRm32Imm8 rm _ | .subRm32Imm8 rm _ | .cmpRm32Imm8 rm _ | .incRm32 rm | .movRm32Imm32 rm _ => rm.wellFormed
  | .addRm32R32 rm _ | .cmpR32Rm32 _ rm | .movRm32R32 rm _ | .movR32Rm32 _ rm => rm.wellFormed
  | .movRm8R8 rm _ | .movR8Rm8 _ rm => rm.wellFormed
  | .cmpAlImm8 _ | .cmpEaxImm32 _ => true
  | .jmpRel8 _ | .jmpRel32 _ | .callRel32 _ | .ret | .leave => true
  | .jo _ | .jno _ | .jc _ | .jnc _ | .jz _ | .jnz _ | .js _ | .jns _ | .jl _ | .jle _ => true
  | .inAlDx | .outDxAl => true

end Sys2Proof
end

