-- ==== Sys2Proof/Decode.lean ====
section
/-! DEFINITION. The decoder (30_encoding R80 to R107), total on any list of bytes and rejecting by name, and after it
the encoder, written from the same tables. The decoder reads bytes only; whether those bytes lie inside memory is
checked by the meaning of the instruction, in the order of its rule (log 3). -/

namespace Sys2Proof

/-! ### Bytes and words -/

/-- Little-endian composition (20_memory R51): the byte at the lowest address holds bits 7:0. -/
def wordOfBytes (b0 b1 b2 b3 : Byte) : Word := b3 ++ b2 ++ b1 ++ b0

/-- Byte `k` of a word, bits `8k+7:8k` (R51). -/
def byteOfWord (w : Word) (k : Nat) : Byte := w.extractLsb' (8 * k) 8

/-- The four bytes of a word in memory order (R51). -/
def bytesOfWord (w : Word) : List Byte := [byteOfWord w 0, byteOfWord w 1, byteOfWord w 2, byteOfWord w 3]

/-! ### Register fields -/

/-- The register a 3-bit field names (10_state R20). -/
def Reg32.ofBits (b : BitVec 3) : Reg32 :=
  match b.toFin with
  | 0 => .eax | 1 => .ecx | 2 => .edx | 3 => .ebx | 4 => .esp | 5 => .ebp | 6 => .esi | 7 => .edi

/-- The index of a register (R20). -/
def Reg32.toBits : Reg32 → BitVec 3
  | .eax => 0#3 | .ecx => 1#3 | .edx => 2#3 | .ebx => 3#3 | .esp => 4#3 | .ebp => 5#3 | .esi => 6#3 | .edi => 7#3

/-- The alias a 3-bit field names (10_state R23). -/
def Reg8.ofBits (b : BitVec 3) : Reg8 :=
  match b.toFin with
  | 0 => .al | 1 => .cl | 2 => .dl | 3 => .bl | 4 => .ah | 5 => .ch | 6 => .dh | 7 => .bh

/-- The index of an alias (R23). -/
def Reg8.toBits : Reg8 → BitVec 3
  | .al => 0#3 | .cl => 1#3 | .dl => 2#3 | .bl => 3#3 | .ah => 4#3 | .ch => 5#3 | .dh => 6#3 | .bh => 7#3

def Rm.map {ρ σ : Type} (f : ρ → σ) : Rm ρ → Rm σ
  | .reg r => .reg (f r)
  | .mem m => .mem m

/-! ### Rejections -/

/-- Why a byte string is no instruction. -/
inductive Reject where
  /-- The byte string ends inside the instruction. -/
  | truncated
  /-- The opcode byte is unmapped (30_encoding R104). -/
  | opcode (op : Byte)
  /-- The reg field of a group opcode is no sub-opcode of the group (R102). The rm operand is kept because the
  bytes that encode it are fetched before the sub-opcode is tested (42_opcode_groups R180). -/
  | subOpcode (op : Byte) (ext : BitVec 3) (rm : Rm (BitVec 3))
  deriving DecidableEq, Repr

/-! ### The dispatch table -/

/-- What the opcode byte alone decides (30_encoding R85, R101): a handler, with its register for the register-coded
classes (R84). -/
inductive Handler where
  | addRm32R32 | cmpR32Rm32 | cmpAlImm8 | cmpEaxImm32
  | incR32 (r : BitVec 3) | pushR32 (r : BitVec 3) | popR32 (r : BitVec 3)
  | pushImm32 | pushImm8
  | jo | jno | jc | jnc | jz | jnz | js | jns | jl | jle
  | group83
  | movRm8R8 | movRm32R32 | movR8Rm8 | movR32Rm32
  | movR8Imm8 (r : BitVec 3) | movR32Imm32 (r : BitVec 3)
  | ret | groupC7 | leave | callRel32 | jmpRel32 | jmpRel8 | inAlDx | outDxAl | groupFF
  deriving DecidableEq, Repr

/-- `Dispatch(op)` (R85): the full map of R101; `none` for the 186 unmapped bytes. -/
def dispatch (op : Byte) : Option Handler :=
  if op = 0x01#8 then some .addRm32R32
  else if op = 0x3B#8 then some .cmpR32Rm32
  else if op = 0x3C#8 then some .cmpAlImm8
  else if op = 0x3D#8 then some .cmpEaxImm32
  else if op &&& 0xF8#8 = 0x40#8 then some (.incR32 (op.extractLsb' 0 3))
  else if op &&& 0xF8#8 = 0x50#8 then some (.pushR32 (op.extractLsb' 0 3))
  else if op &&& 0xF8#8 = 0x58#8 then some (.popR32 (op.extractLsb' 0 3))
  else if op = 0x68#8 then some .pushImm32
  else if op = 0x6A#8 then some .pushImm8
  else if op = 0x70#8 then some .jo
  else if op = 0x71#8 then some .jno
  else if op = 0x72#8 then some .jc
  else if op = 0x73#8 then some .jnc
  else if op = 0x74#8 then some .jz
  else if op = 0x75#8 then some .jnz
  else if op = 0x78#8 then some .js
  else if op = 0x79#8 then some .jns
  else if op = 0x7C#8 then some .jl
  else if op = 0x7E#8 then some .jle
  else if op = 0x83#8 then some .group83
  else if op = 0x88#8 then some .movRm8R8
  else if op = 0x89#8 then some .movRm32R32
  else if op = 0x8A#8 then some .movR8Rm8
  else if op = 0x8B#8 then some .movR32Rm32
  else if op &&& 0xF8#8 = 0xB0#8 then some (.movR8Imm8 (op.extractLsb' 0 3))
  else if op &&& 0xF8#8 = 0xB8#8 then some (.movR32Imm32 (op.extractLsb' 0 3))
  else if op = 0xC3#8 then some .ret
  else if op = 0xC7#8 then some .groupC7
  else if op = 0xC9#8 then some .leave
  else if op = 0xE8#8 then some .callRel32
  else if op = 0xE9#8 then some .jmpRel32
  else if op = 0xEB#8 then some .jmpRel8
  else if op = 0xEC#8 then some .inAlDx
  else if op = 0xEE#8 then some .outDxAl
  else if op = 0xFF#8 then some .groupFF
  else none

/-! ### Fields -/

/-- One byte of the instruction, handed to `k` with the bytes after it. -/
def withByte {α : Type} (bs : List Byte) (k : Byte → List Byte → Except Reject α) : Except Reject α :=
  match bs with
  | b :: rest => k b rest
  | [] => .error .truncated

/-- Four bytes of the instruction as a little-endian word (R86). -/
def withWord {α : Type} (bs : List Byte) (k : Word → List Byte → Except Reject α) : Except Reject α :=
  match bs with
  | b0 :: b1 :: b2 :: b3 :: rest => k (wordOfBytes b0 b1 b2 b3) rest
  | _ => .error .truncated

/-- `ParseModRM` (R90) on the bytes that start with the ModR/M byte (fields: R88; displacements: R92): the reg field
and the rm operand with its register field raw. -/
def withModRM {α : Type} (bs : List Byte)
    (k : BitVec 3 → Rm (BitVec 3) → List Byte → Except Reject α) : Except Reject α :=
  withByte bs fun b rest =>
    let mod := b.extractLsb' 6 2
    let reg := b.extractLsb' 3 3
    let rm := b.extractLsb' 0 3
    if mod = 3#2 then k reg (.reg rm) rest
    else if rm = 4#3 then
      withByte rest fun sib rest =>
        k reg (.mem (.sib (if mod = 0#2 then .mod0 else if mod = 1#2 then .mod1 else .mod2) sib)) rest
    else if mod = 2#2 then withWord rest fun d rest => k reg (.mem (.disp32 (.ofBits rm) d)) rest
    else if mod = 1#2 then withByte rest fun d rest => k reg (.mem (.disp8 (.ofBits rm) d)) rest
    else if rm = 5#3 then withWord rest fun d rest => k reg (.mem (.abs d)) rest
    else k reg (.mem (.ind (.ofBits rm))) rest

/-- Group `83` (R102): `/0` ADD, `/5` SUB, `/7` CMP, each with an imm8. -/
def decodeGroup83 (ext : BitVec 3) (rm : Rm (BitVec 3)) (bs : List Byte) : Except Reject (Instr × List Byte) :=
  if ext = 0#3 then withByte bs fun i rest => .ok (.addRm32Imm8 (rm.map .ofBits) i, rest)
  else if ext = 5#3 then withByte bs fun i rest => .ok (.subRm32Imm8 (rm.map .ofBits) i, rest)
  else if ext = 7#3 then withByte bs fun i rest => .ok (.cmpRm32Imm8 (rm.map .ofBits) i, rest)
  else .error (.subOpcode 0x83#8 ext rm)

/-- Group `FF` (R102): `/0` INC. -/
def decodeGroupFF (ext : BitVec 3) (rm : Rm (BitVec 3)) (bs : List Byte) : Except Reject (Instr × List Byte) :=
  if ext = 0#3 then .ok (.incRm32 (rm.map .ofBits), bs)
  else .error (.subOpcode 0xFF#8 ext rm)

/-- Group `C7` (R102, decision D13): `/0` MOV, with an imm32. -/
def decodeGroupC7 (ext : BitVec 3) (rm : Rm (BitVec 3)) (bs : List Byte) : Except Reject (Instr × List Byte) :=
  if ext = 0#3 then withWord bs fun i rest => .ok (.movRm32Imm32 (rm.map .ofBits) i, rest)
  else .error (.subOpcode 0xC7#8 ext rm)

/-- The operands of each handler, by its format (R81). -/
def decodeOperands (h : Handler) (bs : List Byte) : Except Reject (Instr × List Byte) :=
  match h with
  | .addRm32R32 => withModRM bs fun reg rm rest => .ok (.addRm32R32 (rm.map .ofBits) (.ofBits reg), rest)
  | .cmpR32Rm32 => withModRM bs fun reg rm rest => .ok (.cmpR32Rm32 (.ofBits reg) (rm.map .ofBits), rest)
  | .cmpAlImm8 => withByte bs fun i rest => .ok (.cmpAlImm8 i, rest)
  | .cmpEaxImm32 => withWord bs fun i rest => .ok (.cmpEaxImm32 i, rest)
  | .incR32 r => .ok (.incR32 (.ofBits r), bs)
  | .pushR32 r => .ok (.pushR32 (.ofBits r), bs)
  | .popR32 r => .ok (.popR32 (.ofBits r), bs)
  | .pushImm32 => withWord bs fun i rest => .ok (.pushImm32 i, rest)
  | .pushImm8 => withByte bs fun i rest => .ok (.pushImm8 i, rest)
  | .jo => withByte bs fun d rest => .ok (.jo d, rest)
  | .jno => withByte bs fun d rest => .ok (.jno d, rest)
  | .jc => withByte bs fun d rest => .ok (.jc d, rest)
  | .jnc => withByte bs fun d rest => .ok (.jnc d, rest)
  | .jz => withByte bs fun d rest => .ok (.jz d, rest)
  | .jnz => withByte bs fun d rest => .ok (.jnz d, rest)
  | .js => withByte bs fun d rest => .ok (.js d, rest)
  | .jns => withByte bs fun d rest => .ok (.jns d, rest)
  | .jl => withByte bs fun d rest => .ok (.jl d, rest)
  | .jle => withByte bs fun d rest => .ok (.jle d, rest)
  | .group83 => withModRM bs decodeGroup83
  | .movRm8R8 => withModRM bs fun reg rm rest => .ok (.movRm8R8 (rm.map .ofBits) (.ofBits reg), rest)
  | .movRm32R32 => withModRM bs fun reg rm rest => .ok (.movRm32R32 (rm.map .ofBits) (.ofBits reg), rest)
  | .movR8Rm8 => withModRM bs fun reg rm rest => .ok (.movR8Rm8 (.ofBits reg) (rm.map .ofBits), rest)
  | .movR32Rm32 => withModRM bs fun reg rm rest => .ok (.movR32Rm32 (.ofBits reg) (rm.map .ofBits), rest)
  | .movR8Imm8 r => withByte bs fun i rest => .ok (.movR8Imm8 (.ofBits r) i, rest)
  | .movR32Imm32 r => withWord bs fun i rest => .ok (.movR32Imm32 (.ofBits r) i, rest)
  | .ret => .ok (.ret, bs)
  | .groupC7 => withModRM bs decodeGroupC7
  | .leave => .ok (.leave, bs)
  | .callRel32 => withWord bs fun d rest => .ok (.callRel32 d, rest)
  | .jmpRel32 => withWord bs fun d rest => .ok (.jmpRel32 d, rest)
  | .jmpRel8 => withByte bs fun d rest => .ok (.jmpRel8 d, rest)
  | .inAlDx => .ok (.inAlDx, bs)
  | .outDxAl => .ok (.outDxAl, bs)
  | .groupFF => withModRM bs decodeGroupFF

/-- The instruction at the head of a byte string and the bytes after it, or the reason why there is none. -/
def decode (bs : List Byte) : Except Reject (Instr × List Byte) :=
  withByte bs fun op rest =>
    match dispatch op with
    | some h => decodeOperands h rest
    | none => .error (.opcode op)

/-- The longest admitted instruction has ten bytes (R80). -/
def maxLength : Nat := 10

/-- The instruction the decoder reads from an instruction whose bits are `w`, numbered as the opcode table numbers
them: byte `k` is bits `8k+7:8k`; the bits from `nbits` up are 0. -/
def decodeTableWord (nbits w : Nat) : Option Instr :=
  match decode ((List.range maxLength).map fun k => BitVec.ofNat 8 ((w % 2 ^ nbits) >>> (8 * k))) with
  | .ok (i, _) => some i
  | .error _ => none

/-! ### The encoder -/

/-- The ModR/M byte (R88): `mod[7:6] reg[5:3] rm[2:0]`. -/
def modRMByte (mod : BitVec 2) (reg rm : BitVec 3) : Byte := mod ++ reg ++ rm

/-- `mod` and `rm` of each operand form (R93). -/
def SibMode.toMod : SibMode → BitVec 2
  | .mod0 => 0#2 | .mod1 => 1#2 | .mod2 => 2#2

/-- The ModR/M byte of a memory form with the given reg field (R93). -/
def MemForm.modRM (reg : BitVec 3) : MemForm → Byte
  | .ind base => modRMByte 0#2 reg base.toBits
  | .abs _ => modRMByte 0#2 reg 5#3
  | .disp8 base _ => modRMByte 1#2 reg base.toBits
  | .disp32 base _ => modRMByte 2#2 reg base.toBits
  | .sib mode _ => modRMByte mode.toMod reg 4#3

/-- The bytes after the ModR/M byte: the SIB byte, or the displacement (R92). -/
def MemForm.tail : MemForm → List Byte
  | .ind _ => []
  | .abs d => bytesOfWord d
  | .disp8 _ d => [d]
  | .disp32 _ d => bytesOfWord d
  | .sib _ b => [b]

/-- The addressing bytes of an operand with its register field raw: ModR/M, then SIB or displacement. -/
def encodeModRM (reg : BitVec 3) : Rm (BitVec 3) → List Byte
  | .reg r => [modRMByte 3#2 reg r]
  | .mem m => m.modRM reg :: m.tail

def encodeRm32 (reg : BitVec 3) (rm : Rm Reg32) : List Byte := encodeModRM reg (rm.map Reg32.toBits)

def encodeRm8 (reg : BitVec 3) (rm : Rm Reg8) : List Byte := encodeModRM reg (rm.map Reg8.toBits)

/-- A register-coded opcode byte (R84): the base plus the register index. -/
def regOpcode (base : Byte) (r : BitVec 3) : Byte := base + r.zeroExtend 8

/-- The bytes of an instruction (R81, R100). -/
def encode : Instr → List Byte
  | .pushR32 r => [regOpcode 0x50#8 r.toBits]
  | .popR32 r => [regOpcode 0x58#8 r.toBits]
  | .incR32 r => [regOpcode 0x40#8 r.toBits]
  | .movR32Imm32 r i => regOpcode 0xB8#8 r.toBits :: bytesOfWord i
  | .movR8Imm8 r i => [regOpcode 0xB0#8 r.toBits, i]
  | .pushImm8 i => [0x6A#8, i]
  | .pushImm32 i => 0x68#8 :: bytesOfWord i
  | .addRm32Imm8 rm i => 0x83#8 :: encodeRm32 0#3 rm ++ [i]
  | .subRm32Imm8 rm i => 0x83#8 :: encodeRm32 5#3 rm ++ [i]
  | .cmpRm32Imm8 rm i => 0x83#8 :: encodeRm32 7#3 rm ++ [i]
  | .incRm32 rm => 0xFF#8 :: encodeRm32 0#3 rm
  | .movRm32Imm32 rm i => 0xC7#8 :: encodeRm32 0#3 rm ++ bytesOfWord i
  | .addRm32R32 rm r => 0x01#8 :: encodeRm32 r.toBits rm
  | .cmpR32Rm32 r rm => 0x3B#8 :: encodeRm32 r.toBits rm
  | .movRm8R8 rm r => 0x88#8 :: encodeRm8 r.toBits rm
  | .movRm32R32 rm r => 0x89#8 :: encodeRm32 r.toBits rm
  | .movR8Rm8 r rm => 0x8A#8 :: encodeRm8 r.toBits rm
  | .movR32Rm32 r rm => 0x8B#8 :: encodeRm32 r.toBits rm
  | .cmpAlImm8 i => [0x3C#8, i]
  | .cmpEaxImm32 i => 0x3D#8 :: bytesOfWord i
  | .jmpRel8 d => [0xEB#8, d]
  | .jmpRel32 d => 0xE9#8 :: bytesOfWord d
  | .callRel32 d => 0xE8#8 :: bytesOfWord d
  | .ret => [0xC3#8]
  | .leave => [0xC9#8]
  | .jo d => [0x70#8, d]
  | .jno d => [0x71#8, d]
  | .jc d => [0x72#8, d]
  | .jnc d => [0x73#8, d]
  | .jz d => [0x74#8, d]
  | .jnz d => [0x75#8, d]
  | .js d => [0x78#8, d]
  | .jns d => [0x79#8, d]
  | .jl d => [0x7C#8, d]
  | .jle d => [0x7E#8, d]
  | .inAlDx => [0xEC#8]
  | .outDxAl => [0xEE#8]

/-- The encoded length `L` in bytes (R83). -/
def Instr.length (i : Instr) : Nat := (encode i).length

end Sys2Proof
end

