-- ==== Sys2Proof/Config.lean ====
section
/-! DEFINITION. The implementation parameters of 00_scope R7 with their canonical values, and the one free value
of the spec: what the port collaborator answers to a `PortIn8` (46_port_io R263). -/

namespace Sys2Proof

/-- The parameters of R7. `RESET_GPR` is "a u32 each" for the seven registers other than ESP. -/
structure Params where
  /-- `MEM_SIZE`: number of bytes of the memory array. -/
  memSize : Nat
  /-- `LOAD_ADDR`: where the image is placed, and the start value of `pc` and of ESP. -/
  loadAddr : Word
  resetEax : Word
  resetEcx : Word
  resetEdx : Word
  resetEbx : Word
  resetEbp : Word
  resetEsi : Word
  resetEdi : Word
  /-- `RESET_FLAGS`: start value of all 32 bits of `flags`. -/
  resetFlags : Word
  deriving DecidableEq, Repr

/-- The legal values of `MEM_SIZE` (R7): 1 to 2^32. Every other parameter is any u32. -/
abbrev Params.legal (p : Params) : Prop := 1 ≤ p.memSize ∧ p.memSize ≤ 2 ^ 32

namespace Config

/-- R7: 1 MiB. -/
def memSize : Nat := 0x100000

/-- R7: 0x7C00. -/
def loadAddr : Word := 0x7C00#32

/-- R7: "by convention 512 bytes". A convention of the loader, "not checked by the core": nothing reads it. -/
def imageMax : Nat := 512

/-- R7, R45, decision D4 of the spec (log 6): the value at start of the seven registers other than ESP. -/
def resetGpr : Word := 0#32

/-- R7, R45, decision D4 of the spec (log 6): the value of `flags` at start. -/
def resetFlags : Word := 0#32

/-- The canonical column of R7. -/
def canonical : Params where
  memSize := memSize
  loadAddr := loadAddr
  resetEax := resetGpr
  resetEcx := resetGpr
  resetEdx := resetGpr
  resetEbx := resetGpr
  resetEbp := resetGpr
  resetEsi := resetGpr
  resetEdi := resetGpr
  resetFlags := resetFlags

/-- R263 (a): the answer of the port collaborator, a FREE VALUE (no body: nothing can evaluate it). The arguments are
the number of INs executed before this one and the port address. Log 11. -/
opaque portAnswer : Nat → PortAddr → Byte

end Config

end Sys2Proof
end

