-- ==== Sys2Proof/Machine/State.lean ====
section
/-! DEFINITION. The state of the core, `(x[0..7], flags, pc, mem, status)` (10_state R44), with the record of the
port boundary (46_port_io R263), as plain data; the reasons a step can stop; the state after reset (R45). -/

namespace Sys2Proof.Machine

/-- The eight general registers, by name (R20, R291). The 8-bit aliases are views, not storage (R23). -/
structure Registers where
  eax : Word
  ecx : Word
  edx : Word
  ebx : Word
  esp : Word
  ebp : Word
  esi : Word
  edi : Word
  deriving DecidableEq, Repr

/-- The byte array `mem[0 .. MEM_SIZE-1]` (R34). `size` is `MEM_SIZE`, "chosen at startup" and written by nothing.
`cells` lists the bytes that are not 0, by strictly rising address; an unlisted byte is 0, as the array is
zero-initialised (R34). -/
structure Memory where
  size : Nat
  cells : List Host.Cell
  deriving DecidableEq, Repr

/-- The kind of a memory access (60_exceptions R271). -/
inductive AccessKind where
  | fetch | read | write
  deriving DecidableEq, Repr

/-- The four fatal conditions with the information each records (R271). -/
inductive Condition where
  /-- "the dispatch table has no handler for the fetched byte". -/
  | unimplementedOpcode (op : Byte)
  /-- "a group instruction's opcode-extension value has no handler". -/
  | unimplementedSubOpcode (op : Byte) (ext : BitVec 3)
  /-- "SIB-required addressing"; records the ModR/M byte. -/
  | unimplementedAddressing (byte : Byte)
  /-- An access of `len` bytes at `addr` that does not fit in memory. -/
  | outOfBounds (addr : Word) (len : Nat) (kind : AccessKind)
  deriving DecidableEq, Repr

/-- `status` (R40): running, or why the core stopped. -/
inductive Status where
  | running
  /-- An instruction left `pc = 0`. -/
  | haltNormal
  /-- A cycle began with `pc` not below `MEM_SIZE`. -/
  | stopPcRange (pc : Word)
  | fatal (c : Condition)
  deriving DecidableEq, Repr

/-- One call of the port collaborator (R263 (b)). -/
inductive PortEvent where
  /-- `PortIn8(addr)` and the byte it answered. -/
  | in8 (addr : PortAddr) (answer : Byte)
  /-- `PortOut8(addr, value)`. -/
  | out8 (addr : PortAddr) (value : Byte)
  deriving DecidableEq, Repr

/-- The state between instruction cycles. `portAnswers` and `portReads` are the model's own, for the free answers of
the port collaborator (R263 (a), D19; log 11). -/
structure State where
  regs : Registers
  flags : Word
  pc : Word
  mem : Memory
  status : Status
  /-- The port calls made so far, oldest first. -/
  portEvents : List PortEvent
  /-- The answers the collaborator has ready, the next one first. -/
  portAnswers : List Byte
  /-- How many INs have been executed: the index of the free answer used when `portAnswers` is empty. -/
  portReads : Nat
  deriving DecidableEq, Repr

/-- Why a step has no next state. The spec's own stops are not faults here: they are next states with `status` set,
since the spec says what the state is after each of them (R272, R277, R278). -/
inductive Fault where
  /-- Raised by `step` when the decoder asks for more bytes than the window of `maxLength` bytes it is given. No
  state reaches it, since no instruction is longer than the window (R80). Safe: the machine would only stop. -/
  | windowTooShort
  deriving DecidableEq, Repr

/-- Why an instruction has no meaning. -/
inductive Refusal where
  /-- Raised by `exec` for an instruction that is not modelled yet; at present by none. Safe. -/
  | notModelled (mnemonic : String)
  deriving DecidableEq, Repr

/-- The start values of R45 with the canonical parameters and the empty image (R303: "The empty image (k = 0) is
legal: memory is all zero"). The values of the seven registers other than ESP and of `flags` are the spec's decision
D4 (log 6); the three port fields are the model's own (log 11). -/
def State.reset : State where
  regs :=
    { eax := Config.resetGpr, ecx := Config.resetGpr, edx := Config.resetGpr, ebx := Config.resetGpr
      esp := Config.loadAddr
      ebp := Config.resetGpr, esi := Config.resetGpr, edi := Config.resetGpr }
  flags := Config.resetFlags
  pc := Config.loadAddr
  mem := { size := Config.memSize, cells := [] }
  status := .running
  portEvents := []
  portAnswers := []
  portReads := 0

end Sys2Proof.Machine
end

