-- ==== Sys2Proof/Machine/Ops.lean ====
section
/-! DEFINITION. The named operations every meaning is built from: registers and their 8-bit aliases (10_state), memory
(20_memory), instruction fetch (30_encoding R86), the stack (40_common_operations R127, R128), the port boundary
(46_port_io R263), and the stops: raising a fatal condition (60_exceptions R272), the end of a cycle (R277, R278). -/

namespace Sys2Proof

/-! ### Aliases -/

/-- The 32-bit register an alias is a view of (R23). -/
def Reg8.parent : Reg8 → Reg32
  | .al | .ah => .eax
  | .cl | .ch => .ecx
  | .dl | .dh => .edx
  | .bl | .bh => .ebx

/-- Whether the alias is the high byte, bits 15:8, of its parent (R23). -/
def Reg8.high : Reg8 → Bool
  | .al | .cl | .dl | .bl => false
  | .ah | .ch | .dh | .bh => true

/-! ### The loader -/

/-- What `LoadImage` can be given (70_reset_and_hazards R303, R304): the empty image at any `LOAD_ADDR`, and any other
image that fits. DEDUCED for the empty image with `LOAD_ADDR > MEM_SIZE`, which the `requires` line of R303 read alone
would shut out and R7 and R304 admit (log 23). -/
abbrev Params.admits (p : Params) (image : List Byte) : Prop :=
  image = [] ∨ p.loadAddr.toNat + image.length ≤ p.memSize

end Sys2Proof

namespace Sys2Proof.Machine

/-! ### Registers -/

/-- `x[i]` (R22). -/
def Registers.get (x : Registers) : Reg32 → Word
  | .eax => x.eax | .ecx => x.ecx | .edx => x.edx | .ebx => x.ebx
  | .esp => x.esp | .ebp => x.ebp | .esi => x.esi | .edi => x.edi

/-- `x[i] <- v` (R22): all 32 bits. -/
def Registers.set (x : Registers) (r : Reg32) (v : Word) : Registers :=
  match r with
  | .eax => { x with eax := v } | .ecx => { x with ecx := v }
  | .edx => { x with edx := v } | .ebx => { x with ebx := v }
  | .esp => { x with esp := v } | .ebp => { x with ebp := v }
  | .esi => { x with esi := v } | .edi => { x with edi := v }

/-- `x8[j]` (R23). -/
def Registers.get8 (x : Registers) (j : Reg8) : Byte :=
  if j.high then (x.get j.parent).extractLsb' 8 8 else (x.get j.parent).extractLsb' 0 8

/-- `x8[j] <- v` (R24): one byte of one register. -/
def Registers.set8 (x : Registers) (j : Reg8) (v : Byte) : Registers :=
  if j.high then x.set j.parent ((x.get j.parent &&& 0xFFFF00FF#32) ||| (v.zeroExtend 32 <<< 8))
  else x.set j.parent ((x.get j.parent &&& 0xFFFFFF00#32) ||| v.zeroExtend 32)

def State.reg (s : State) (r : Reg32) : Word := s.regs.get r

def State.setReg (s : State) (r : Reg32) (v : Word) : State := { s with regs := s.regs.set r v }

def State.reg8 (s : State) (j : Reg8) : Byte := s.regs.get8 j

def State.setReg8 (s : State) (j : Reg8) (v : Byte) : State := { s with regs := s.regs.set8 j v }

/-! ### Memory -/

/-- What a list of cells holds at an address; an unlisted address holds 0 (R34). -/
def cellsGet : List Host.Cell → Nat → Byte
  | [], _ => 0#8
  | (k, v) :: rest, a => if k = a then v else cellsGet rest a

/-- Write one byte, keeping the addresses rising and listing no 0. -/
def cellsSet : List Host.Cell → Nat → Byte → List Host.Cell
  | [], a, v => if v = 0#8 then [] else [(a, v)]
  | (k, w) :: rest, a, v =>
    if a < k then (if v = 0#8 then (k, w) :: rest else (a, v) :: (k, w) :: rest)
    else if a = k then (if v = 0#8 then rest else (a, v) :: rest)
    else (k, w) :: cellsSet rest a v

/-- The canonical form of a list of cells: addresses strictly rising, from `lo` on and below `size`, and no 0 listed. -/
def cellsWf (lo size : Nat) : List Host.Cell → Bool
  | [] => true
  | (k, v) :: rest => decide (lo ≤ k) && decide (k < size) && v != 0#8 && cellsWf (k + 1) size rest

def Memory.wf (m : Memory) : Bool := cellsWf 0 m.size m.cells

/-- `mem[a]`. -/
def Memory.byteAt (m : Memory) (a : Nat) : Byte := cellsGet m.cells a

/-- `mem[a] <- v`. -/
def Memory.setByte (m : Memory) (a : Nat) (v : Byte) : Memory := { m with cells := cellsSet m.cells a v }

/-- Four bytes from `a` up, little-endian (R51). -/
def Memory.wordAt (m : Memory) (a : Nat) : Word :=
  wordOfBytes (m.byteAt a) (m.byteAt (a + 1)) (m.byteAt (a + 2)) (m.byteAt (a + 3))

/-- Four bytes from `a` up, little-endian (R51, R54). -/
def Memory.setWord (m : Memory) (a : Nat) (v : Word) : Memory :=
  (((m.setByte a (byteOfWord v 0)).setByte (a + 1) (byteOfWord v 1)).setByte (a + 2) (byteOfWord v 2)).setByte (a + 3)
    (byteOfWord v 3)

/-- The bounds rule (R55): an access of `n` bytes at `a` is inside memory, the sum taken in unbounded integers. -/
def Memory.fits (m : Memory) (a : Word) (n : Nat) : Bool := decide (a.toNat + n ≤ m.size)

/-- The one check of an access, made before any byte is touched (R55). -/
def Memory.check (m : Memory) (a : Word) (n : Nat) (kind : AccessKind) : Except Condition Unit :=
  if m.fits a n then .ok () else .error (.outOfBounds a n kind)

/-- `MemRead(a, 1)` (R52). -/
def Memory.read8 (m : Memory) (a : Word) : Except Condition Byte := do
  m.check a 1 .read
  .ok (m.byteAt a.toNat)

/-- `MemRead(a, 4)` (R53). -/
def Memory.read32 (m : Memory) (a : Word) : Except Condition Word := do
  m.check a 4 .read
  .ok (m.wordAt a.toNat)

/-- `MemWrite(a, 1, v)` (R54). -/
def Memory.write8 (m : Memory) (a : Word) (v : Byte) : Except Condition Memory := do
  m.check a 1 .write
  .ok (m.setByte a.toNat v)

/-- `MemWrite(a, 4, v)` (R54). -/
def Memory.write32 (m : Memory) (a : Word) (v : Word) : Except Condition Memory := do
  m.check a 4 .write
  .ok (m.setWord a.toNat v)

/-- Bytes laid at rising addresses from `a`, each where it falls inside memory. -/
def Memory.placeBytes (m : Memory) (a : Word) : List Byte → Memory
  | [] => m
  | b :: bs => (if a.toNat < m.size then m.setByte a.toNat b else m).placeBytes (a + 1#32) bs

/-! ### Instruction fetch -/

/-- The address of instruction byte `off`, computed modulo 2^32 from `pc0` (R86, D10). -/
def State.fetchAddr (s : State) (off : Nat) : Word := s.pc + BitVec.ofNat 32 off

/-- The bounds rule of `Fetch8`, `FetchS8` (`n = 1`) and `Fetch32` (`n = 4`) at `pc0 + off` (R86). The value fetched
is already an operand of the decoded instruction; a meaning checks the fetch where its rule makes it (log 3). -/
def State.checkFetch (s : State) (off n : Nat) : Except Condition Unit := s.mem.check (s.fetchAddr off) n .fetch

/-- The `maxLength` bytes at `pc` the decoder looks at. A byte outside memory is shown as 0, and no meaning uses it
(log 3). -/
def State.window (s : State) : List Byte :=
  (List.range maxLength).map fun k => s.mem.byteAt (s.fetchAddr k).toNat

/-- `pc <- pc0 + n` (R27, R28). -/
def State.advance (s : State) (n : Nat) : State := { s with pc := s.pc + BitVec.ofNat 32 n }

/-! ### The stack -/

/-- `Push32(v)` (R127). -/
def State.push32 (s : State) (v : Word) : Except Condition State := do
  let sp := s.reg .esp - 4#32
  let m ← s.mem.write32 sp v
  .ok ({ s with mem := m }.setReg .esp sp)

/-- `Pop32()` (R128): the value read and the state with ESP advanced. -/
def State.pop32 (s : State) : Except Condition (Word × State) := do
  let v ← s.mem.read32 (s.reg .esp)
  .ok (v, s.setReg .esp (s.reg .esp + 4#32))

/-! ### The port boundary -/

/-- The port address of IN and OUT: the low 16 bits of EDX (46_port_io R262). -/
def State.portAddr (s : State) : PortAddr := (s.reg .edx).extractLsb' 0 16

/-- The byte the collaborator answers to the next `PortIn8(a)` (R263 (a)): the next of the answers it has ready, or
else a free value (log 11). -/
def State.portAnswer (s : State) (a : PortAddr) : Byte :=
  match s.portAnswers with
  | v :: _ => v
  | [] => Config.portAnswer s.portReads a

/-- `PortIn8(a)`: one call, recorded with its answer (R263 (b)). -/
def State.portIn8 (s : State) (a : PortAddr) : Byte × State :=
  (s.portAnswer a,
    { s with
      portEvents := s.portEvents ++ [.in8 a (s.portAnswer a)]
      portAnswers := s.portAnswers.tail
      portReads := s.portReads + 1 })

/-- `PortOut8(a, v)`: one call, recorded (R263 (b)). -/
def State.portOut8 (s : State) (a : PortAddr) (v : Byte) : State :=
  { s with portEvents := s.portEvents ++ [.out8 a v] }

/-! ### Stops -/

/-- The numeric code of each status (R40, D7). -/
def Status.code : Status → Nat
  | .running => 0
  | .haltNormal => 1
  | .stopPcRange _ => 2
  | .fatal (.unimplementedOpcode _) => 3
  | .fatal (.unimplementedSubOpcode _ _) => 4
  | .fatal (.unimplementedAddressing _) => 5
  | .fatal (.outOfBounds _ _ _) => 6

/-- `raise c` (R272, R275): `status` records the condition and nothing else changes. -/
def State.raise (s : State) (c : Condition) : State := { s with status := .fatal c }

/-- The end of a handler: its effects if it raised nothing, else the state it began in with the condition recorded
(R272: fatal conditions commit nothing). -/
def commit (s : State) (r : Except Condition State) : Host.Outcome State Fault Refusal :=
  match r with
  | .ok t => .next t
  | .error c => .next (s.raise c)

/-- Step 1 of the cycle (R120, R278): the core stops with `pc` out of range and nothing else changes. -/
def State.stopOutOfRange (s : State) : State := { s with status := .stopPcRange s.pc }

/-- Step 5 of the cycle (R120, R277): a completed instruction that leaves `pc = 0` ends the program. -/
def State.haltAtZero (s : State) : State :=
  match s.status with
  | .running => if s.pc = 0#32 then { s with status := .haltNormal } else s
  | .haltNormal => s
  | .stopPcRange _ => s
  | .fatal _ => s

/-- Step 5 on the outcome of step 4; after a raise `status` is not running and the test is not made (R120). -/
def finishCycle : Host.Outcome State Fault Refusal → Host.Outcome State Fault Refusal
  | .next t => .next t.haltAtZero
  | .fault f => .fault f
  | .refused r => .refused r

/-! ### Start -/

/-- The start sequence (70_reset_and_hazards R300) with any parameters and image: `none` where the parameters are not legal (R7) or the
loader cannot place the image (R303, D18; log 18). -/
def State.start (p : Params) (image : List Byte) : Option State :=
  if p.legal ∧ p.admits image then
    some
      { regs :=
          { eax := p.resetEax, ecx := p.resetEcx, edx := p.resetEdx, ebx := p.resetEbx
            esp := p.loadAddr
            ebp := p.resetEbp, esi := p.resetEsi, edi := p.resetEdi }
        flags := p.resetFlags
        pc := p.loadAddr
        mem := Memory.placeBytes { size := p.memSize, cells := [] } p.loadAddr image
        status := .running
        portEvents := []
        portAnswers := []
        portReads := 0 }
  else none

end Sys2Proof.Machine
end

