-- ==== Sys2Proof/Machine/Flags.lean ====
section
/-! DEFINITION. The flags engine (40_common_operations R124), the flag predicates (R125) and the conditions of the ten
conditional jumps (R126, 45_conditional_jumps R251). -/

namespace Sys2Proof.Machine

/-- Bit positions of the four defined flags (10_state R30). -/
def carryBit : Nat := 0
def zeroBit : Nat := 6
def signBit : Nat := 7
def overflowBit : Nat := 11

/-- `flags[i] <- b`: one bit, the other 31 kept. -/
def setFlag (f : Word) (i : Nat) (b : Bool) : Word :=
  if b then f ||| (1#32 <<< i) else f &&& ~~~(1#32 <<< i)

/-- `result_wide` (R124): the subtraction in 64 bits. -/
def subWide (op1 op2 : Word) : BitVec 64 := op1.zeroExtend 64 - op2.zeroExtend 64

/-- `res`: the low 32 bits of the wide result (R124). -/
def subResult (op1 op2 : Word) : Word := (subWide op1 op2).extractLsb' 0 32

/-- CARRY (R124): "bits above bit 31 of result_wide are nonzero". -/
def subCarry (op1 op2 : Word) : Bool := (subWide op1 op2).extractLsb' 32 32 != 0#32

/-- ZERO (R124). -/
def subZero (op1 op2 : Word) : Bool := subResult op1 op2 == 0#32

/-- SIGN (R124): bit 31 of the result. -/
def subSign (op1 op2 : Word) : Bool := (subResult op1 op2).getLsbD 31

/-- OVERFLOW (R124): "sign(op1) ≠ sign(op2) AND sign(op1) ≠ SIGN-of-result". -/
def subOverflow (op1 op2 : Word) : Bool :=
  op1.getLsbD 31 != op2.getLsbD 31 && op1.getLsbD 31 != subSign op1 op2

/-- What `SubFlags(op1, op2)` leaves in `flags` (R124): the four defined bits written, the other 28 kept. -/
def subFlags (f op1 op2 : Word) : Word :=
  setFlag (setFlag (setFlag (setFlag f carryBit (subCarry op1 op2)) zeroBit (subZero op1 op2)) signBit
    (subSign op1 op2)) overflowBit (subOverflow op1 op2)

/-- `SubFlags(op1, op2)` on the state; its result is `subResult op1 op2`. -/
def State.withSubFlags (s : State) (op1 op2 : Word) : State := { s with flags := subFlags s.flags op1 op2 }

/-- The predicates of R125. -/
def isCarry (f : Word) : Bool := f.getLsbD carryBit
def isZero (f : Word) : Bool := f.getLsbD zeroBit
def isSign (f : Word) : Bool := f.getLsbD signBit
def isOverflow (f : Word) : Bool := f.getLsbD overflowBit

/-- "less than" = SIGN ≠ OVERFLOW (R126). -/
def isLess (f : Word) : Bool := isSign f != isOverflow f

/-- "less or equal" = ZERO OR (SIGN ≠ OVERFLOW) (R126). -/
def isLessOrEqual (f : Word) : Bool := isZero f || isLess f

end Sys2Proof.Machine
end

