-- ==== Sys2Proof/Machine/Operands.lean ====
section
/-! DEFINITION. The operand forms (40_common_operations R130 to R137): effective addresses, the rm operand of 32 and of
8 bits, and the fetch of the bytes that encode it. -/

namespace Sys2Proof

open Machine (State Condition)

/-- The effective address of a memory form (R132), computed modulo 2^32; `none` for the SIB form, which has none
(R133). -/
def MemForm.address (s : State) : MemForm → Option Word
  | .ind base => some (s.reg base)
  | .abs d => some d
  | .disp8 base d => some (s.reg base + d.signExtend 32)
  | .disp32 base d => some (s.reg base + d)
  | .sib _ _ => none

/-- `EA(M)` (R132, R133): the address, or `UnimplementedAddressing` with the ModR/M byte. `reg` is the reg field of
that byte. -/
def MemForm.ea (s : State) (reg : BitVec 3) (m : MemForm) : Except Condition Word :=
  match m.address s with
  | some a => .ok a
  | none => .error (.unimplementedAddressing (m.modRM reg))

/-- `n`, the number of addressing bytes (30_encoding R90, R93). -/
def Rm.size {ρ : Type} : Rm ρ → Nat
  | .reg _ => 1
  | .mem (.ind _) => 1
  | .mem (.abs _) => 5
  | .mem (.disp8 _ _) => 2
  | .mem (.disp32 _ _) => 5
  | .mem (.sib _ _) => 2

end Sys2Proof

namespace Sys2Proof.Machine

/-- The fetches of `ParseModRM(pc0 + 1)` (R90): the ModR/M byte, then the SIB byte or the displacement, each under the
bounds rule. -/
def fetchModRM {ρ : Type} (s : State) (rm : Rm ρ) : Except Condition Unit := do
  s.checkFetch 1 1
  match rm with
  | .reg _ => .ok ()
  | .mem (.ind _) => .ok ()
  | .mem (.abs _) => s.checkFetch 2 4
  | .mem (.disp8 _ _) => s.checkFetch 2 1
  | .mem (.disp32 _ _) => s.checkFetch 2 4
  | .mem (.sib _ _) => s.checkFetch 2 1

/-- `GetRM32(M)` (R134). -/
def getRm32 (s : State) (reg : BitVec 3) : Rm Reg32 → Except Condition Word
  | .reg r => .ok (s.reg r)
  | .mem m => do
    let a ← m.ea s reg
    s.mem.read32 a

/-- `SetRM32(M, v)` (R134). -/
def setRm32 (s : State) (reg : BitVec 3) (rm : Rm Reg32) (v : Word) : Except Condition State :=
  match rm with
  | .reg r => .ok (s.setReg r v)
  | .mem m => do
    let a ← m.ea s reg
    let m' ← s.mem.write32 a v
    .ok { s with mem := m' }

/-- `GetRM8(M)` (R135). -/
def getRm8 (s : State) (reg : BitVec 3) : Rm Reg8 → Except Condition Byte
  | .reg r => .ok (s.reg8 r)
  | .mem m => do
    let a ← m.ea s reg
    s.mem.read8 a

/-- `SetRM8(M, v)` (R135). -/
def setRm8 (s : State) (reg : BitVec 3) (rm : Rm Reg8) (v : Byte) : Except Condition State :=
  match rm with
  | .reg r => .ok (s.setReg8 r v)
  | .mem m => do
    let a ← m.ea s reg
    let m' ← s.mem.write8 a v
    .ok { s with mem := m' }

/-- The addressing test of MOV rm32, imm32 (42_opcode_groups R187): the SIB form raises before the immediate is
fetched. -/
def checkAddressing {ρ : Type} (s : State) (reg : BitVec 3) : Rm ρ → Except Condition Unit
  | .reg _ => .ok ()
  | .mem m => do
    let _ ← m.ea s reg
    .ok ()

/-- A byte string that is no instruction (30_encoding R104, 42_opcode_groups R180): the condition it raises. The
addressing bytes of a group opcode are fetched before its sub-opcode is tested. -/
def State.rejected (s : State) : Reject → Host.Outcome State Fault Refusal
  | .truncated => .fault .windowTooShort
  | .opcode op => commit s (.error (.unimplementedOpcode op))
  | .subOpcode op ext rm => commit s do
    fetchModRM s rm
    .error (.unimplementedSubOpcode op ext)

end Sys2Proof.Machine
end

