-- ==== Sys2Proof/Machine/ConditionalJumps.lean ====
section
/-! DEFINITION. 45_conditional_jumps: the ten jumps on flags, one shared operation (R240) with a condition each
(R251). -/

namespace Sys2Proof.Machine

/-- R240: the offset byte is fetched, and so can raise, only when the condition holds. -/
def jumpIf (cond : Bool) (rel : Byte) (s : State) : Except Condition State :=
  if cond then do
    s.checkFetch 1 1
    .ok { s with pc := s.pc + 2#32 + rel.signExtend 32 }
  else .ok (s.advance 2)

/-- JO rel8 (R241): `OF = 1`. -/
def execJo (rel : Byte) (s : State) : Host.Outcome State Fault Refusal := commit s (jumpIf (isOverflow s.flags) rel s)

/-- JNO rel8 (R242): `OF = 0`. -/
def execJno (rel : Byte) (s : State) : Host.Outcome State Fault Refusal := commit s (jumpIf (!isOverflow s.flags) rel s)

/-- JC rel8 (R243): `CF = 1`. -/
def execJc (rel : Byte) (s : State) : Host.Outcome State Fault Refusal := commit s (jumpIf (isCarry s.flags) rel s)

/-- JNC rel8 (R244): `CF = 0`. -/
def execJnc (rel : Byte) (s : State) : Host.Outcome State Fault Refusal := commit s (jumpIf (!isCarry s.flags) rel s)

/-- JZ rel8 (R245): `ZF = 1`. -/
def execJz (rel : Byte) (s : State) : Host.Outcome State Fault Refusal := commit s (jumpIf (isZero s.flags) rel s)

/-- JNZ rel8 (R246): `ZF = 0`. -/
def execJnz (rel : Byte) (s : State) : Host.Outcome State Fault Refusal := commit s (jumpIf (!isZero s.flags) rel s)

/-- JS rel8 (R247): `SF = 1`. -/
def execJs (rel : Byte) (s : State) : Host.Outcome State Fault Refusal := commit s (jumpIf (isSign s.flags) rel s)

/-- JNS rel8 (R248): `SF = 0`. -/
def execJns (rel : Byte) (s : State) : Host.Outcome State Fault Refusal := commit s (jumpIf (!isSign s.flags) rel s)

/-- JL rel8 (R249): `SF ≠ OF`. -/
def execJl (rel : Byte) (s : State) : Host.Outcome State Fault Refusal := commit s (jumpIf (isLess s.flags) rel s)

/-- JLE rel8 (R250): `ZF = 1` or `SF ≠ OF`. -/
def execJle (rel : Byte) (s : State) : Host.Outcome State Fault Refusal :=
  commit s (jumpIf (isLessOrEqual s.flags) rel s)

end Sys2Proof.Machine
end

