-- ==== Sys2Proof/Machine/ControlTransfer.lean ====
section
/-! DEFINITION. 44_control_transfer: JMP, CALL, RET, LEAVE. Targets are computed modulo 2^32 and not checked (R220). -/

namespace Sys2Proof.Machine

/-- JMP rel8 (R221). -/
def execJmpRel8 (rel : Byte) (s : State) : Host.Outcome State Fault Refusal :=
  commit s do
    s.checkFetch 1 1
    .ok { s with pc := s.pc + 2#32 + rel.signExtend 32 }

/-- JMP rel32 (R222). -/
def execJmpRel32 (rel : Word) (s : State) : Host.Outcome State Fault Refusal :=
  commit s do
    s.checkFetch 1 4
    .ok { s with pc := s.pc + 5#32 + rel }

/-- CALL rel32 (R223). -/
def execCallRel32 (rel : Word) (s : State) : Host.Outcome State Fault Refusal :=
  commit s do
    s.checkFetch 1 4
    let t ← s.push32 (s.pc + 5#32)
    .ok { t with pc := s.pc + 5#32 + rel }

/-- RET (R224). -/
def execRet (s : State) : Host.Outcome State Fault Refusal :=
  commit s do
    let (v, t) ← s.pop32
    .ok { t with pc := v }

/-- LEAVE (R228). -/
def execLeave (s : State) : Host.Outcome State Fault Refusal :=
  commit s do
    let b := s.reg .ebp
    let v ← s.mem.read32 b
    .ok (((s.setReg .esp (b + 4#32)).setReg .ebp v).advance 1)

end Sys2Proof.Machine
end

