-- ==== Sys2Proof/Machine/OpcodeGroups.lean ====
section
/-! DEFINITION. 42_opcode_groups: the instructions of the groups `83`, `FF` and `C7`. The reg field of the ModR/M byte
is the sub-opcode. -/

namespace Sys2Proof.Machine

/-- ADD rm32, imm8 (R181). No flag is written (D2; log 7). -/
def execAddRm32Imm8 (rm : Rm Reg32) (imm : Byte) (s : State) : Host.Outcome State Fault Refusal :=
  commit s do
    fetchModRM s rm
    let a ← getRm32 s 0#3 rm
    s.checkFetch (1 + rm.size) 1
    let t ← setRm32 s 0#3 rm (a + imm.signExtend 32)
    .ok (t.advance (2 + rm.size))

/-- SUB rm32, imm8 (R182). -/
def execSubRm32Imm8 (rm : Rm Reg32) (imm : Byte) (s : State) : Host.Outcome State Fault Refusal :=
  commit s do
    fetchModRM s rm
    let a ← getRm32 s 5#3 rm
    s.checkFetch (1 + rm.size) 1
    let t ← setRm32 (s.withSubFlags a (imm.signExtend 32)) 5#3 rm (subResult a (imm.signExtend 32))
    .ok (t.advance (2 + rm.size))

/-- CMP rm32, imm8 (R183). The operand is not written. -/
def execCmpRm32Imm8 (rm : Rm Reg32) (imm : Byte) (s : State) : Host.Outcome State Fault Refusal :=
  commit s do
    fetchModRM s rm
    let a ← getRm32 s 7#3 rm
    s.checkFetch (1 + rm.size) 1
    .ok ((s.withSubFlags a (imm.signExtend 32)).advance (2 + rm.size))

/-- INC rm32 (R185). No flag is written (D3; log 7). -/
def execIncRm32 (rm : Rm Reg32) (s : State) : Host.Outcome State Fault Refusal :=
  commit s do
    fetchModRM s rm
    let a ← getRm32 s 0#3 rm
    let t ← setRm32 s 0#3 rm (a + 1#32)
    .ok (t.advance (1 + rm.size))

/-- MOV rm32, imm32 (R187). The destination is not read; the SIB form raises before the immediate is fetched. -/
def execMovRm32Imm32 (rm : Rm Reg32) (imm : Word) (s : State) : Host.Outcome State Fault Refusal :=
  commit s do
    fetchModRM s rm
    checkAddressing s 0#3 rm
    s.checkFetch (1 + rm.size) 4
    let t ← setRm32 s 0#3 rm imm
    .ok (t.advance (5 + rm.size))

end Sys2Proof.Machine
end

