-- ==== Sys2Proof/Machine/PortIO.lean ====
section
/-! DEFINITION. 46_port_io: IN AL, DX and OUT DX, AL, the only instructions that reach outside the core. -/

namespace Sys2Proof.Machine

/-- IN AL, DX (R260): one call of `PortIn8`; its answer is a free input (R263; log 11). -/
def execInAlDx (s : State) : Host.Outcome State Fault Refusal :=
  let (v, t) := s.portIn8 s.portAddr
  commit s (.ok ((t.setReg8 .al v).advance 1))

/-- OUT DX, AL (R261): one call of `PortOut8`. -/
def execOutDxAl (s : State) : Host.Outcome State Fault Refusal :=
  commit s (.ok ((s.portOut8 s.portAddr (s.reg8 .al)).advance 1))

end Sys2Proof.Machine
end

