-- ==== Sys2Proof/Machine/RegCoded.lean ====
section
/-! DEFINITION. 41_register_coded_and_stack: PUSH, POP, INC r32, MOV immediate to register. In every meaning the
pseudocode of the rule is followed in its order, raises first and `pc` last. -/

namespace Sys2Proof.Machine

/-- PUSH r32 (R161). The operand is read before ESP is decremented. -/
def execPushR32 (r : Reg32) (s : State) : Host.Outcome State Fault Refusal :=
  commit s do
    let t ← s.push32 (s.reg r)
    .ok (t.advance 1)

/-- POP r32 (R162). The register is written after ESP is incremented. -/
def execPopR32 (r : Reg32) (s : State) : Host.Outcome State Fault Refusal :=
  commit s do
    let (v, t) ← s.pop32
    .ok ((t.setReg r v).advance 1)

/-- INC r32 (R163). No flag is written (D3; log 7). -/
def execIncR32 (r : Reg32) (s : State) : Host.Outcome State Fault Refusal :=
  commit s (.ok ((s.setReg r (s.reg r + 1#32)).advance 1))

/-- MOV r32, imm32 (R164). -/
def execMovR32Imm32 (r : Reg32) (imm : Word) (s : State) : Host.Outcome State Fault Refusal :=
  commit s do
    s.checkFetch 1 4
    .ok ((s.setReg r imm).advance 5)

/-- MOV r8, imm8 (R165). -/
def execMovR8Imm8 (r : Reg8) (imm : Byte) (s : State) : Host.Outcome State Fault Refusal :=
  commit s do
    s.checkFetch 1 1
    .ok ((s.setReg8 r imm).advance 2)

/-- PUSH imm8 (R166). The immediate is sign-extended (D6; log 8). -/
def execPushImm8 (imm : Byte) (s : State) : Host.Outcome State Fault Refusal :=
  commit s do
    s.checkFetch 1 1
    let t ← s.push32 (imm.signExtend 32)
    .ok (t.advance 2)

/-- PUSH imm32 (R167). -/
def execPushImm32 (imm : Word) (s : State) : Host.Outcome State Fault Refusal :=
  commit s do
    s.checkFetch 1 4
    let t ← s.push32 imm
    .ok (t.advance 5)

end Sys2Proof.Machine
end

