-- ==== Sys2Proof/Machine/TwoOperand.lean ====
section
/-! DEFINITION. 43_two_operand: ADD, CMP and MOV between a register and an rm operand, and the accumulator compares. -/

namespace Sys2Proof.Machine

/-- ADD rm32, r32 (R201). No flag is written (D2; log 7). -/
def execAddRm32R32 (rm : Rm Reg32) (r : Reg32) (s : State) : Host.Outcome State Fault Refusal :=
  commit s do
    fetchModRM s rm
    let a ← getRm32 s r.toBits rm
    let t ← setRm32 s r.toBits rm (a + s.reg r)
    .ok (t.advance (1 + rm.size))

/-- CMP r32, rm32 (R202): the register is the minuend. -/
def execCmpR32Rm32 (r : Reg32) (rm : Rm Reg32) (s : State) : Host.Outcome State Fault Refusal :=
  commit s do
    fetchModRM s rm
    let b ← getRm32 s r.toBits rm
    .ok ((s.withSubFlags (s.reg r) b).advance (1 + rm.size))

/-- MOV rm8, r8 (R203). -/
def execMovRm8R8 (rm : Rm Reg8) (r : Reg8) (s : State) : Host.Outcome State Fault Refusal :=
  commit s do
    fetchModRM s rm
    let t ← setRm8 s r.toBits rm (s.reg8 r)
    .ok (t.advance (1 + rm.size))

/-- MOV rm32, r32 (R204). -/
def execMovRm32R32 (rm : Rm Reg32) (r : Reg32) (s : State) : Host.Outcome State Fault Refusal :=
  commit s do
    fetchModRM s rm
    let t ← setRm32 s r.toBits rm (s.reg r)
    .ok (t.advance (1 + rm.size))

/-- MOV r8, rm8 (R205): one byte of one register changes. -/
def execMovR8Rm8 (r : Reg8) (rm : Rm Reg8) (s : State) : Host.Outcome State Fault Refusal :=
  commit s do
    fetchModRM s rm
    let v ← getRm8 s r.toBits rm
    .ok ((s.setReg8 r v).advance (1 + rm.size))

/-- MOV r32, rm32 (R206). -/
def execMovR32Rm32 (r : Reg32) (rm : Rm Reg32) (s : State) : Host.Outcome State Fault Refusal :=
  commit s do
    fetchModRM s rm
    let v ← getRm32 s r.toBits rm
    .ok ((s.setReg r v).advance (1 + rm.size))

/-- CMP AL, imm8 (R207): both bytes zero-extended into the 32-bit flags engine (D15; log 9). -/
def execCmpAlImm8 (imm : Byte) (s : State) : Host.Outcome State Fault Refusal :=
  commit s do
    s.checkFetch 1 1
    .ok ((s.withSubFlags ((s.reg8 .al).zeroExtend 32) (imm.zeroExtend 32)).advance 2)

/-- CMP EAX, imm32 (R208). -/
def execCmpEaxImm32 (imm : Word) (s : State) : Host.Outcome State Fault Refusal :=
  commit s do
    s.checkFetch 1 4
    .ok ((s.withSubFlags (s.reg .eax) imm).advance 5)

end Sys2Proof.Machine
end

