-- ==== Sys2Proof/Machine/Dispatch.lean ====
section
/-! DEFINITION. Step 4 of the instruction cycle (40_common_operations R120): one arm per instruction. -/

namespace Sys2Proof.Machine

def exec (i : Instr) (s : State) : Host.Outcome State Fault Refusal :=
  match i with
  -- 41_register_coded_and_stack
  | .pushR32 r => Sys2Proof.Machine.execPushR32 r s
  | .popR32 r => Sys2Proof.Machine.execPopR32 r s
  | .incR32 r => Sys2Proof.Machine.execIncR32 r s
  | .movR32Imm32 r imm => Sys2Proof.Machine.execMovR32Imm32 r imm s
  | .movR8Imm8 r imm => Sys2Proof.Machine.execMovR8Imm8 r imm s
  | .pushImm8 imm => Sys2Proof.Machine.execPushImm8 imm s
  | .pushImm32 imm => Sys2Proof.Machine.execPushImm32 imm s
  -- 42_opcode_groups
  | .addRm32Imm8 rm imm => Sys2Proof.Machine.execAddRm32Imm8 rm imm s
  | .subRm32Imm8 rm imm => Sys2Proof.Machine.execSubRm32Imm8 rm imm s
  | .cmpRm32Imm8 rm imm => Sys2Proof.Machine.execCmpRm32Imm8 rm imm s
  | .incRm32 rm => Sys2Proof.Machine.execIncRm32 rm s
  | .movRm32Imm32 rm imm => Sys2Proof.Machine.execMovRm32Imm32 rm imm s
  -- 43_two_operand
  | .addRm32R32 rm r => Sys2Proof.Machine.execAddRm32R32 rm r s
  | .cmpR32Rm32 r rm => Sys2Proof.Machine.execCmpR32Rm32 r rm s
  | .movRm8R8 rm r => Sys2Proof.Machine.execMovRm8R8 rm r s
  | .movRm32R32 rm r => Sys2Proof.Machine.execMovRm32R32 rm r s
  | .movR8Rm8 r rm => Sys2Proof.Machine.execMovR8Rm8 r rm s
  | .movR32Rm32 r rm => Sys2Proof.Machine.execMovR32Rm32 r rm s
  | .cmpAlImm8 imm => Sys2Proof.Machine.execCmpAlImm8 imm s
  | .cmpEaxImm32 imm => Sys2Proof.Machine.execCmpEaxImm32 imm s
  -- 44_control_transfer
  | .jmpRel8 rel => Sys2Proof.Machine.execJmpRel8 rel s
  | .jmpRel32 rel => Sys2Proof.Machine.execJmpRel32 rel s
  | .callRel32 rel => Sys2Proof.Machine.execCallRel32 rel s
  | .ret => Sys2Proof.Machine.execRet s
  | .leave => Sys2Proof.Machine.execLeave s
  -- 45_conditional_jumps
  | .jo rel => Sys2Proof.Machine.execJo rel s
  | .jno rel => Sys2Proof.Machine.execJno rel s
  | .jc rel => Sys2Proof.Machine.execJc rel s
  | .jnc rel => Sys2Proof.Machine.execJnc rel s
  | .jz rel => Sys2Proof.Machine.execJz rel s
  | .jnz rel => Sys2Proof.Machine.execJnz rel s
  | .js rel => Sys2Proof.Machine.execJs rel s
  | .jns rel => Sys2Proof.Machine.execJns rel s
  | .jl rel => Sys2Proof.Machine.execJl rel s
  | .jle rel => Sys2Proof.Machine.execJle rel s
  -- 46_port_io
  | .inAlDx => Sys2Proof.Machine.execInAlDx s
  | .outDxAl => Sys2Proof.Machine.execOutDxAl s

end Sys2Proof.Machine
end

