-- ==== Sys2Proof/Machine/Step.lean ====
section
/-! DEFINITION. The instruction cycle (40_common_operations R120) as one step. -/

namespace Sys2Proof.Machine

/-- Steps 2 to 5 of the cycle (R120) on the bytes `w` the decoder is shown: decode, execute, the halt test. -/
def runOn (w : List Byte) (s : State) : Host.Outcome State Fault Refusal :=
  match decode w with
  | .ok (i, _) => finishCycle (exec i s)
  | .error r => s.rejected r

/-- One cycle of a running core (R120): the range test, then the instruction at `pc`. -/
def cycle (s : State) : Host.Outcome State Fault Refusal :=
  if s.mem.size ≤ s.pc.toNat then .next s.stopOutOfRange else runOn s.window s

/-- One step. "Once `status` is not `RUNNING` it never changes again and no further instruction cycle runs" (R40,
R286): a stopped core keeps all its state (R289; log 2). -/
def step (s : State) : Host.Outcome State Fault Refusal :=
  match s.status with
  | .running => cycle s
  | .haltNormal => .next s
  | .stopPcRange _ => .next s
  | .fatal _ => .next s

/-- `s`, running, with the instruction whose bits are `w` (numbered as the opcode table numbers them, 0 from bit
`nbits` up) stored at `pc`, where `step` fetches: it stands for `LoadImage` (70_reset_and_hazards R303; log 13). -/
def State.withFetchWord (s : State) (nbits w : Nat) : State :=
  { s with
    status := .running
    mem := s.mem.placeBytes s.pc
      ((List.range maxLength).map fun k => BitVec.ofNat 8 ((w % 2 ^ nbits) >>> (8 * k))) }

end Sys2Proof.Machine
end

