-- ==== Sys2Proof/Safety.lean ====
section
/-! DEFINITION. The terms claims are stated in: the invariant of the machine, what a status says about the state it
stands in, a normal end; the fatal conditions of a rule in order; what each instruction may write. -/

namespace Sys2Proof.Machine

/-! ### Invariants -/

/-- The invariant of every reachable state: memory is in canonical form and `MEM_SIZE` is legal (00_scope R7). -/
abbrev State.Inv (s : State) : Prop := s.mem.wf = true ∧ 1 ≤ s.mem.size ∧ s.mem.size ≤ 2 ^ 32

/-- The byte of memory at a 32-bit address. -/
def State.at (s : State) (a : Word) : Byte := s.mem.byteAt a.toNat

/-- A byte pair (opcode, reg field) that the group table of 30_encoding R102 leaves unassigned. -/
def unassignedSubOpcode (op : Byte) (ext : BitVec 3) : Bool :=
  op == 0x83#8 && !(ext == 0#3 || ext == 5#3 || ext == 7#3) ||
    (op == 0xFF#8 || op == 0xC7#8) && ext != 0#3

/-- What a fatal condition says of the state it stopped in, whose `pc` still addresses the instruction
(60_exceptions R271, R272). -/
def Condition.Holds (s : State) : Condition → Prop
  | .unimplementedOpcode op => op = s.at s.pc ∧ dispatch op = none
  | .unimplementedSubOpcode op ext =>
    op = s.at s.pc ∧ ext = (s.at (s.pc + 1#32)).extractLsb' 3 3 ∧ unassignedSubOpcode op ext = true
  | .unimplementedAddressing b =>
    b = s.at (s.pc + 1#32) ∧ b.extractLsb' 6 2 ≠ 3#2 ∧ b.extractLsb' 0 3 = 4#3
  | .outOfBounds a n _ => (n = 1 ∨ n = 4) ∧ s.mem.size < a.toNat + n

/-- What each status says of the state it stands in (10_state R40; R272, R277, R278). -/
def State.StatusTrue (s : State) : Prop :=
  match s.status with
  | .running => True
  | .haltNormal => s.pc = 0#32
  | .stopPcRange p => p = s.pc ∧ s.mem.size ≤ s.pc.toNat
  | .fatal c => s.pc.toNat < s.mem.size ∧ c.Holds s

/-- A run that has not gone wrong: running, or ended by the program itself. Running off the end of memory is not a
normal end (R278, D16; log 20). -/
def Status.normal : Status → Bool
  | .running => true
  | .haltNormal => true
  | .stopPcRange _ => false
  | .fatal _ => false

/-! ### Fatal conditions in order -/

/-- The fatal conditions of a rule, in the order they can arise, each with whether it does. -/
abbrev Faults := List (Bool × Condition)

/-- The one that is reported: the first that arises (60_exceptions R273). -/
def firstFault : Faults → Option Condition
  | [] => none
  | (arises, c) :: rest => if arises then some c else firstFault rest

/-- The bounds rule as a fault (20_memory R55): it arises exactly when the access does not fit. -/
def State.outside (s : State) (a : Word) (n : Nat) (kind : AccessKind) : Bool × Condition :=
  (!s.mem.fits a n, .outOfBounds a n kind)

/-- "`OutOfBounds` from fetching the ModR/M bytes" (30_encoding R90, R92): the ModR/M byte at `pc0 + 1`, then the SIB
byte or the displacement at `pc0 + 2`. -/
def modRMFaults {ρ : Type} (s : State) : Rm ρ → Faults
  | .reg _ => [s.outside (s.pc + 1#32) 1 .fetch]
  | .mem (.ind _) => [s.outside (s.pc + 1#32) 1 .fetch]
  | .mem (.abs _) => [s.outside (s.pc + 1#32) 1 .fetch, s.outside (s.pc + 2#32) 4 .fetch]
  | .mem (.disp8 _ _) => [s.outside (s.pc + 1#32) 1 .fetch, s.outside (s.pc + 2#32) 1 .fetch]
  | .mem (.disp32 _ _) => [s.outside (s.pc + 1#32) 1 .fetch, s.outside (s.pc + 2#32) 4 .fetch]
  | .mem (.sib _ _) => [s.outside (s.pc + 1#32) 1 .fetch, s.outside (s.pc + 2#32) 1 .fetch]

/-- "`UnimplementedAddressing(M.byte)` when `mod != 3` and `rm == 4`" (40_common_operations R133); `reg` is the reg
field of the ModR/M byte. -/
def sibFault {ρ : Type} (reg : BitVec 3) : Rm ρ → Faults
  | .reg _ => []
  | .mem (.ind _) => []
  | .mem (.abs _) => []
  | .mem (.disp8 _ _) => []
  | .mem (.disp32 _ _) => []
  | .mem (.sib mode _) => [(true, .unimplementedAddressing (modRMByte mode.toMod reg 4#3))]

/-- "`OutOfBounds(EA, n, kind)`" of an rm operand in memory (R134, R135). -/
def accessFault {ρ : Type} (s : State) (rm : Rm ρ) (n : Nat) (kind : AccessKind) : Faults :=
  match rm with
  | .reg _ => []
  | .mem m =>
    match m.address s with
    | some a => [s.outside a n kind]
    | none => []

/-! ### Operand values, where no fault arises -/

/-- The value of a 32-bit rm operand (R134). The SIB form has no value: its fault arises first. -/
def State.loadRm32 (s : State) : Rm Reg32 → Word
  | .reg r => s.reg r
  | .mem m =>
    match m.address s with
    | some a => s.mem.wordAt a.toNat
    | none => 0

/-- The state with a 32-bit rm operand written (R134). -/
def State.storeRm32 (s : State) (rm : Rm Reg32) (v : Word) : State :=
  match rm with
  | .reg r => { s with regs := s.regs.set r v }
  | .mem m =>
    match m.address s with
    | some a => { s with mem := s.mem.setWord a.toNat v }
    | none => s

/-- The value of an 8-bit rm operand (R135). -/
def State.loadRm8 (s : State) : Rm Reg8 → Byte
  | .reg r => s.regs.get8 r
  | .mem m =>
    match m.address s with
    | some a => s.mem.byteAt a.toNat
    | none => 0

/-- The state with an 8-bit rm operand written (R135). -/
def State.storeRm8 (s : State) (rm : Rm Reg8) (v : Byte) : State :=
  match rm with
  | .reg r => { s with regs := s.regs.set8 r v }
  | .mem m =>
    match m.address s with
    | some a => { s with mem := s.mem.setByte a.toNat v }
    | none => s

/-- The number of bytes a ModR/M byte asks for after itself (30_encoding R92): a SIB byte, a disp8 or a disp32. -/
def tailLength (b : Byte) : Nat :=
  if b.extractLsb' 6 2 = 3#2 then 0
  else if b.extractLsb' 0 3 = 4#3 then 1
  else if b.extractLsb' 6 2 = 2#2 then 4
  else if b.extractLsb' 6 2 = 1#2 then 1
  else if b.extractLsb' 0 3 = 5#3 then 4
  else 0

end Sys2Proof.Machine

namespace Sys2Proof

open Machine (State)

/-! ### The opcode table -/

/-- The `match` and `mask` of the instruction's row in spec/opcode_table.json (30_encoding R110). -/
def Instr.tableRow : Instr → BitVec 16 × BitVec 16
  | .pushR32 _ => (0x0050, 0x00F8)
  | .popR32 _ => (0x0058, 0x00F8)
  | .incR32 _ => (0x0040, 0x00F8)
  | .movR32Imm32 _ _ => (0x00B8, 0x00F8)
  | .movR8Imm8 _ _ => (0x00B0, 0x00F8)
  | .pushImm8 _ => (0x006A, 0x00FF)
  | .pushImm32 _ => (0x0068, 0x00FF)
  | .addRm32Imm8 _ _ => (0x0083, 0x38FF)
  | .subRm32Imm8 _ _ => (0x2883, 0x38FF)
  | .cmpRm32Imm8 _ _ => (0x3883, 0x38FF)
  | .incRm32 _ => (0x00FF, 0x38FF)
  | .movRm32Imm32 _ _ => (0x00C7, 0x38FF)
  | .addRm32R32 _ _ => (0x0001, 0x00FF)
  | .cmpR32Rm32 _ _ => (0x003B, 0x00FF)
  | .movRm8R8 _ _ => (0x0088, 0x00FF)
  | .movRm32R32 _ _ => (0x0089, 0x00FF)
  | .movR8Rm8 _ _ => (0x008A, 0x00FF)
  | .movR32Rm32 _ _ => (0x008B, 0x00FF)
  | .cmpAlImm8 _ => (0x003C, 0x00FF)
  | .cmpEaxImm32 _ => (0x003D, 0x00FF)
  | .jmpRel8 _ => (0x00EB, 0x00FF)
  | .jmpRel32 _ => (0x00E9, 0x00FF)
  | .callRel32 _ => (0x00E8, 0x00FF)
  | .ret => (0x00C3, 0x00FF)
  | .leave => (0x00C9, 0x00FF)
  | .jo _ => (0x0070, 0x00FF)
  | .jno _ => (0x0071, 0x00FF)
  | .jc _ => (0x0072, 0x00FF)
  | .jnc _ => (0x0073, 0x00FF)
  | .jz _ => (0x0074, 0x00FF)
  | .jnz _ => (0x0075, 0x00FF)
  | .js _ => (0x0078, 0x00FF)
  | .jns _ => (0x0079, 0x00FF)
  | .jl _ => (0x007C, 0x00FF)
  | .jle _ => (0x007E, 0x00FF)
  | .inAlDx => (0x00EC, 0x00FF)
  | .outDxAl => (0x00EE, 0x00FF)

/-- The row is selected exactly when `(w & mask) == match` (R110). -/
def rowSelects (row : BitVec 16 × BitVec 16) (w : BitVec 16) : Prop := w &&& row.2 = row.1

/-! ### What an instruction may write -/

/-- The register a 32-bit rm operand is, if it is one. -/
def Rm.isReg32 : Rm Reg32 → Reg32 → Bool
  | .reg d, r => r == d
  | .mem _, _ => false

/-- The register an 8-bit rm operand is a byte of, if it is a register. -/
def Rm.isReg8 : Rm Reg8 → Reg32 → Bool
  | .reg d, r => r == d.parent
  | .mem _, _ => false

/-- The registers an instruction may write: its destination, and ESP or EBP where its rule says so (10_state R21 and
the operand lists of files 41 to 46). -/
def Instr.writesReg (i : Instr) (r : Reg32) : Bool :=
  match i with
  | .pushR32 _ | .pushImm8 _ | .pushImm32 _ | .callRel32 _ | .ret => r == .esp
  | .popR32 d => r == d || r == .esp
  | .incR32 d | .movR32Imm32 d _ | .movR32Rm32 d _ => r == d
  | .movR8Imm8 d _ | .movR8Rm8 d _ => r == d.parent
  | .addRm32Imm8 rm _ | .subRm32Imm8 rm _ | .incRm32 rm | .movRm32Imm32 rm _ => rm.isReg32 r
  | .addRm32R32 rm _ | .movRm32R32 rm _ => rm.isReg32 r
  | .movRm8R8 rm _ => rm.isReg8 r
  | .cmpRm32Imm8 _ _ | .cmpR32Rm32 _ _ | .cmpAlImm8 _ | .cmpEaxImm32 _ => false
  | .jmpRel8 _ | .jmpRel32 _ => false
  | .leave => r == .esp || r == .ebp
  | .jo _ | .jno _ | .jc _ | .jnc _ | .jz _ | .jnz _ | .js _ | .jns _ | .jl _ | .jle _ => false
  | .inAlDx => r == .eax
  | .outDxAl => false

/-- The five instructions that write flags (10_state R31). -/
def Instr.writesFlags : Instr → Bool
  | .subRm32Imm8 _ _ | .cmpRm32Imm8 _ _ | .cmpR32Rm32 _ _ | .cmpAlImm8 _ | .cmpEaxImm32 _ => true
  | .pushR32 _ | .popR32 _ | .incR32 _ | .movR32Imm32 _ _ | .movR8Imm8 _ _ | .pushImm8 _ | .pushImm32 _ => false
  | .addRm32Imm8 _ _ | .incRm32 _ | .movRm32Imm32 _ _ => false
  | .addRm32R32 _ _ | .movRm8R8 _ _ | .movRm32R32 _ _ | .movR8Rm8 _ _ | .movR32Rm32 _ _ => false
  | .jmpRel8 _ | .jmpRel32 _ | .callRel32 _ | .ret | .leave => false
  | .jo _ | .jno _ | .jc _ | .jnc _ | .jz _ | .jnz _ | .js _ | .jns _ | .jl _ | .jle _ => false
  | .inAlDx | .outDxAl => false

/-- The address of an rm operand in memory. -/
def Rm.address {ρ : Type} (s : State) : Rm ρ → Option Word
  | .reg _ => none
  | .mem m => m.address s

/-- Where an instruction stores and how many bytes (20_memory R58); `none` for a form that stores nothing. -/
def Instr.storesAt (i : Instr) (s : State) : Option (Word × Nat) :=
  match i with
  | .pushR32 _ | .pushImm8 _ | .pushImm32 _ | .callRel32 _ => some (s.reg .esp - 4#32, 4)
  | .addRm32Imm8 rm _ | .subRm32Imm8 rm _ | .incRm32 rm | .movRm32Imm32 rm _ => (rm.address s).map (·, 4)
  | .addRm32R32 rm _ | .movRm32R32 rm _ => (rm.address s).map (·, 4)
  | .movRm8R8 rm _ => (rm.address s).map (·, 1)
  | .popR32 _ | .incR32 _ | .movR32Imm32 _ _ | .movR8Imm8 _ _ | .cmpRm32Imm8 _ _ => none
  | .cmpR32Rm32 _ _ | .movR8Rm8 _ _ | .movR32Rm32 _ _ | .cmpAlImm8 _ | .cmpEaxImm32 _ => none
  | .jmpRel8 _ | .jmpRel32 _ | .ret | .leave => none
  | .jo _ | .jno _ | .jc _ | .jnc _ | .jz _ | .jnz _ | .js _ | .jns _ | .jl _ | .jle _ => none
  | .inAlDx | .outDxAl => none

/-- The instructions that may send `pc` elsewhere than to the next instruction (44_control_transfer,
45_conditional_jumps). -/
def Instr.transfersControl : Instr → Bool
  | .jmpRel8 _ | .jmpRel32 _ | .callRel32 _ | .ret => true
  | .jo _ | .jno _ | .jc _ | .jnc _ | .jz _ | .jnz _ | .js _ | .jns _ | .jl _ | .jle _ => true
  | .pushR32 _ | .popR32 _ | .incR32 _ | .movR32Imm32 _ _ | .movR8Imm8 _ _ | .pushImm8 _ | .pushImm32 _ => false
  | .addRm32Imm8 _ _ | .subRm32Imm8 _ _ | .cmpRm32Imm8 _ _ | .incRm32 _ | .movRm32Imm32 _ _ => false
  | .addRm32R32 _ _ | .cmpR32Rm32 _ _ | .movRm8R8 _ _ | .movRm32R32 _ _ | .movR8Rm8 _ _ | .movR32Rm32 _ _ => false
  | .cmpAlImm8 _ | .cmpEaxImm32 _ | .leave | .inAlDx | .outDxAl => false

/-- The two instructions that call the port collaborator (46_port_io R263 (d)). -/
def Instr.callsPort : Instr → Bool
  | .inAlDx | .outDxAl => true
  | .pushR32 _ | .popR32 _ | .incR32 _ | .movR32Imm32 _ _ | .movR8Imm8 _ _ | .pushImm8 _ | .pushImm32 _ => false
  | .addRm32Imm8 _ _ | .subRm32Imm8 _ _ | .cmpRm32Imm8 _ _ | .incRm32 _ | .movRm32Imm32 _ _ => false
  | .addRm32R32 _ _ | .cmpR32Rm32 _ _ | .movRm8R8 _ _ | .movRm32R32 _ _ | .movR8Rm8 _ _ | .movR32Rm32 _ _ => false
  | .cmpAlImm8 _ | .cmpEaxImm32 _ | .jmpRel8 _ | .jmpRel32 _ | .callRel32 _ | .ret | .leave => false
  | .jo _ | .jno _ | .jc _ | .jnc _ | .jz _ | .jnz _ | .js _ | .jns _ | .jl _ | .jle _ => false

end Sys2Proof
end

