-- ==== Sys2Proof/Certificates/Slice0/Obligations.lean ====
section
/-! DEFINITION. The statements for the provers, from the numbered rules of spec/.

What holds of every statement here. Where an instruction raises a fatal condition, that nothing but `status` changes is
the spec's own decision D5 (log 10), and that `status` holds the reason is its decision D7 (log 1). Addresses and `pc`
are computed modulo 2^32 by its decision D10 (log 16). The bytes of an encoding are those of 30_encoding, many of them
marked there as taken from general knowledge (log 15). -/

open Sys2Proof Sys2Proof.Machine

/-! ### Encoding -/

/-- Decoding an encoded well-formed instruction gives it back, with every operand, and leaves the bytes after it. -/
def Obligations.DecodeOfEncode : Prop :=
  ∀ (i : Instr) (rest : List Byte), i.wellFormed = true → decode (encode i ++ rest) = .ok (i, rest)

/-- Every byte string that decodes is the encoding of the instruction it decodes to, which is well formed: no bit of
an admitted encoding is ignored (30_encoding R104). -/
def Obligations.EncodeOfDecode : Prop :=
  ∀ (bs : List Byte) (i : Instr) (rest : List Byte), decode bs = .ok (i, rest) →
    i.wellFormed = true ∧ encode i ++ rest = bs

/-- Words written out from the encodings of R81, R88 and R100 decode to the instructions they stand for, one or more
of each family. -/
def Obligations.SpecWordsDecode : Prop :=
  decode [0xB8, 0x05, 0x00, 0x00, 0x00] = .ok (.movR32Imm32 .eax 5, []) ∧
  decode [0x6A, 0x05] = .ok (.pushImm8 5, []) ∧
  decode [0xB4, 0xAB] = .ok (.movR8Imm8 .ah 0xAB, []) ∧
  decode [0x83, 0x7D, 0xFC, 0x0A] = .ok (.cmpRm32Imm8 (.mem (.disp8 .ebp 0xFC)) 10, []) ∧
  decode [0xC7, 0x05, 0x00, 0x80, 0x00, 0x00, 0xEF, 0xBE, 0xAD, 0xDE]
    = .ok (.movRm32Imm32 (.mem (.abs 0x8000)) 0xDEADBEEF, []) ∧
  decode [0x88, 0x03] = .ok (.movRm8R8 (.mem (.ind .ebx)) .al, []) ∧
  decode [0x8B, 0x93, 0x00, 0x01, 0x00, 0x00] = .ok (.movR32Rm32 .edx (.mem (.disp32 .ebx 0x100)), []) ∧
  decode [0x01, 0xD8] = .ok (.addRm32R32 (.reg .eax) .ebx, []) ∧
  decode [0xE8, 0x03, 0x00, 0x00, 0x00] = .ok (.callRel32 3, []) ∧
  decode [0x7C, 0x03] = .ok (.jl 3, []) ∧
  decode [0xEC] = .ok (.inAlDx, []) ∧
  decode [0xFF, 0x04, 0x24] = .ok (.incRm32 (.mem (.sib .mod0 0x24)), [])

/-- The opcode map (R101): the 70 mapped bytes, and on every other byte the fatal condition `UnimplementedOpcode`
(R104), which changes nothing but `status`. -/
def Obligations.UnmappedOpcodesStop : Prop :=
  (∀ op : Byte, dispatch op = none ↔
    op.toNat ∉ [0x01, 0x3B, 0x3C, 0x3D, 0x40, 0x41, 0x42, 0x43, 0x44, 0x45, 0x46, 0x47, 0x50, 0x51, 0x52, 0x53, 0x54,
      0x55, 0x56, 0x57, 0x58, 0x59, 0x5A, 0x5B, 0x5C, 0x5D, 0x5E, 0x5F, 0x68, 0x6A, 0x70, 0x71, 0x72, 0x73, 0x74,
      0x75, 0x78, 0x79, 0x7C, 0x7E, 0x83, 0x88, 0x89, 0x8A, 0x8B, 0xB0, 0xB1, 0xB2, 0xB3, 0xB4, 0xB5, 0xB6, 0xB7,
      0xB8, 0xB9, 0xBA, 0xBB, 0xBC, 0xBD, 0xBE, 0xBF, 0xC3, 0xC7, 0xC9, 0xE8, 0xE9, 0xEB, 0xEC, 0xEE, 0xFF]) ∧
  ∀ s : State, s.status = .running → s.pc.toNat < s.mem.size → dispatch (s.at s.pc) = none →
    step s = .next { s with status := .fatal (.unimplementedOpcode (s.at s.pc)) }

/-- The rows of spec/opcode_table.json decide what the decoder admits (R110): a row is selected by the first two bytes
exactly when the bytes decode to an instruction of that row; no two rows match the same bytes; bytes that no row
matches are an unmapped opcode if no row has their first byte, and else an unassigned sub-opcode. -/
def Obligations.TableRowsSelectInstructions : Prop :=
  ∀ (b0 b1 : Byte) (rest : List Byte), maxLength ≤ rest.length + 2 →
    (∀ i : Instr, rowSelects i.tableRow (b1 ++ b0) ↔
      ∃ j r, decode (b0 :: b1 :: rest) = .ok (j, r) ∧ j.tableRow = i.tableRow) ∧
    (∀ i j : Instr, rowSelects i.tableRow (b1 ++ b0) → rowSelects j.tableRow (b1 ++ b0) → i.tableRow = j.tableRow) ∧
    ((∀ i : Instr, ¬ rowSelects i.tableRow (b1 ++ b0)) →
      ((∀ (i : Instr) (b : Byte), ¬ rowSelects i.tableRow (b ++ b0)) →
        decode (b0 :: b1 :: rest) = .error (.opcode b0)) ∧
      ((∃ (i : Instr) (b : Byte), rowSelects i.tableRow (b ++ b0)) →
        ∃ rm, decode (b0 :: b1 :: rest) = .error (.subOpcode b0 (b1.extractLsb' 3 3) rm)))

/-- A step runs the instruction its decoder reads at `pc` (40_common_operations R120), and then only the halt test of
step 5 stands between `exec` and the next state. -/
def Obligations.StepRunsDecodedInstruction : Prop :=
  ∀ (s : State) (i : Instr) (rest : List Byte), s.status = .running → s.pc.toNat < s.mem.size →
    decode s.window = .ok (i, rest) →
    step s = finishCycle (exec i s) ∧
    ∀ t, exec i s = .next t →
      step s = .next (if t.status = .running ∧ t.pc = 0#32 then { t with status := .haltNormal } else t)

/-- When the bytes at `pc` are the encoding of a well-formed instruction, a step runs that instruction. -/
def Obligations.StepRunsBytesInMemory : Prop :=
  ∀ (s : State) (i : Instr), s.status = .running → s.pc.toNat < s.mem.size → i.wellFormed = true →
    (∀ k (h : k < (encode i).length), s.at (s.pc + BitVec.ofNat 32 k) = (encode i)[k]) →
    step s = finishCycle (exec i s)

/-- No byte outside memory is ever used: with any bytes shown to the decoder in place of those that lie outside
memory, the cycle ends in the same outcome (log 3). -/
def Obligations.BytesOutsideMemoryNeverMatter : Prop :=
  ∀ (s : State) (w : List Byte), s.pc.toNat < s.mem.size → w.length = maxLength →
    (∀ k < maxLength, s.mem.fits (s.fetchAddr k) 1 → w[k]? = s.window[k]?) →
    runOn w s = runOn s.window s

/-! ### Start -/

/-- The state after reset (10_state R45). The zeros of the seven registers other than ESP and of `flags` are the spec's
decision D4 (log 6); the port fields are the model's own (log 11). -/
def Obligations.ResetValues : Prop :=
  State.reset.pc = 0x7C00#32 ∧ State.reset.reg .esp = 0x7C00#32 ∧
  (∀ r : Reg32, r ≠ .esp → State.reset.reg r = 0#32) ∧ State.reset.flags = 0#32 ∧
  State.reset.status = .running ∧ State.reset.mem.size = 0x100000 ∧ (∀ a, State.reset.mem.byteAt a = 0#8) ∧
  State.reset.portEvents = [] ∧ State.start Config.canonical [] = some State.reset

/-- The start sequence (70_reset_and_hazards R300, R303) for every legal choice of the parameters and every image that
fits, the empty one at any `LOAD_ADDR` (log 23): the start values of R45. -/
def Obligations.StartSequence : Prop :=
  ∀ (p : Params) (image : List Byte), p.legal →
    (image = [] ∨ p.loadAddr.toNat + image.length ≤ p.memSize) →
    ∃ s, State.start p image = some s ∧ s.Inv ∧ s.pc = p.loadAddr ∧ s.reg .esp = p.loadAddr ∧
      s.reg .eax = p.resetEax ∧ s.reg .ecx = p.resetEcx ∧ s.reg .edx = p.resetEdx ∧ s.reg .ebx = p.resetEbx ∧
      s.reg .ebp = p.resetEbp ∧ s.reg .esi = p.resetEsi ∧ s.reg .edi = p.resetEdi ∧ s.flags = p.resetFlags ∧
      s.status = .running ∧ s.portEvents = [] ∧ s.mem.size = p.memSize ∧
      (∀ k (h : k < image.length), s.mem.byteAt (p.loadAddr.toNat + k) = image[k]) ∧
      ∀ a, (a < p.loadAddr.toNat ∨ p.loadAddr.toNat + image.length ≤ a) → s.mem.byteAt a = 0#8

/-- A start with `LOAD_ADDR` not below `MEM_SIZE` (70_reset_and_hazards R304, an inference of the spec; log 23): the
empty image starts, the first cycle stops with `STOP_PC_RANGE(LOAD_ADDR)` and changes nothing else, and no other image
can be loaded (R303, D18; log 18). -/
def Obligations.StartOutsideMemory : Prop :=
  ∀ p : Params, p.legal → p.memSize ≤ p.loadAddr.toNat →
    (∃ s, State.start p [] = some s ∧ step s = .next { s with status := .stopPcRange p.loadAddr }) ∧
    ∀ image, image ≠ [] → State.start p image = none

/-! ### Registers, memory, flags, stack, addresses -/

/-- The register accessors (10_state R22, R23, R24): a 32-bit write changes its register only; an 8-bit read is a byte
of its register; an 8-bit write changes that byte only. -/
def Obligations.RegisterAccess : Prop :=
  ∀ (x : Registers) (r q : Reg32) (v : Word) (j : Reg8) (b : Byte),
    (x.set r v).get r = v ∧ (q ≠ r → (x.set r v).get q = x.get q) ∧
    x.get8 .al = x.eax.extractLsb' 0 8 ∧ x.get8 .cl = x.ecx.extractLsb' 0 8 ∧
    x.get8 .dl = x.edx.extractLsb' 0 8 ∧ x.get8 .bl = x.ebx.extractLsb' 0 8 ∧
    x.get8 .ah = x.eax.extractLsb' 8 8 ∧ x.get8 .ch = x.ecx.extractLsb' 8 8 ∧
    x.get8 .dh = x.edx.extractLsb' 8 8 ∧ x.get8 .bh = x.ebx.extractLsb' 8 8 ∧
    (x.set8 j b).get8 j = b ∧ (∀ k : Reg8, k ≠ j → (x.set8 j b).get8 k = x.get8 k) ∧
    (q ≠ j.parent → (x.set8 j b).get q = x.get q) ∧
    ((x.set8 j b).get q).extractLsb' 16 16 = (x.get q).extractLsb' 16 16

/-- The bounds rule (20_memory R55): an access of any length and kind raises `OutOfBounds` exactly when
`addr + n > MEM_SIZE`, the sum taken in unbounded integers; a read or write raises so, and otherwise reads or writes
the bytes named. -/
def Obligations.AccessBounds : Prop :=
  ∀ (m : Memory) (a : Word) (n : Nat) (kind : AccessKind) (v : Byte) (w : Word),
    (a.toNat + n ≤ m.size → m.check a n kind = .ok ()) ∧
    (m.size < a.toNat + n → m.check a n kind = .error (.outOfBounds a n kind)) ∧
    (a.toNat + 1 ≤ m.size → m.read8 a = .ok (m.byteAt a.toNat) ∧ m.write8 a v = .ok (m.setByte a.toNat v)) ∧
    (a.toNat + 4 ≤ m.size → m.read32 a = .ok (m.wordAt a.toNat) ∧ m.write32 a w = .ok (m.setWord a.toNat w)) ∧
    (m.size < a.toNat + 1 → m.read8 a = .error (.outOfBounds a 1 .read) ∧
      m.write8 a v = .error (.outOfBounds a 1 .write)) ∧
    (m.size < a.toNat + 4 → m.read32 a = .error (.outOfBounds a 4 .read) ∧
      m.write32 a w = .error (.outOfBounds a 4 .write))

/-- What a write leaves to be read (20_memory R51, R53, R54, R57): the bytes written read back, alone and as a word,
little-endian, and every other byte is as before. -/
def Obligations.WriteThenRead : Prop :=
  ∀ (m : Memory) (a : Nat) (v : Byte) (w : Word), m.wf = true →
    (a + 1 ≤ m.size → (m.setByte a v).byteAt a = v ∧ ∀ b, b ≠ a → (m.setByte a v).byteAt b = m.byteAt b) ∧
    (a + 4 ≤ m.size → (m.setWord a w).wordAt a = w ∧
      (∀ k < 4, (m.setWord a w).byteAt (a + k) = w.extractLsb' (8 * k) 8) ∧
      ∀ b, (b < a ∨ a + 4 ≤ b) → (m.setWord a w).byteAt b = m.byteAt b) ∧
    m.wordAt a = m.byteAt (a + 3) ++ m.byteAt (a + 2) ++ m.byteAt (a + 1) ++ m.byteAt a

/-- The flags engine (40_common_operations R124), as the source states it: CARRY is the unsigned order, ZERO equality,
SIGN bit 31 of the difference, OVERFLOW the signed difference out of range; the other 28 bits are kept. -/
def Obligations.SubFlagsLaw : Prop :=
  ∀ (f a b : Word),
    subResult a b = a - b ∧
    (subFlags f a b).getLsbD 0 = decide (a.toNat < b.toNat) ∧
    (subFlags f a b).getLsbD 6 = decide (a = b) ∧
    (subFlags f a b).getLsbD 7 = (a - b).getLsbD 31 ∧
    (subFlags f a b).getLsbD 11 = decide (a.toInt - b.toInt < -2 ^ 31 ∨ 2 ^ 31 ≤ a.toInt - b.toInt) ∧
    ∀ i, i ≠ 0 → i ≠ 6 → i ≠ 7 → i ≠ 11 → (subFlags f a b).getLsbD i = f.getLsbD i

/-- The composite conditions (R126): their definition on any flags, and after `SubFlags(a, b)` the signed order of `a`
and `b`, also where the subtraction overflows. -/
def Obligations.SignedConditions : Prop :=
  ∀ (f a b : Word),
    isLess f = (f.getLsbD 7 != f.getLsbD 11) ∧ isLessOrEqual f = (f.getLsbD 6 || (f.getLsbD 7 != f.getLsbD 11)) ∧
    isLess (subFlags f a b) = decide (a.toInt < b.toInt) ∧
    isLessOrEqual (subFlags f a b) = decide (a.toInt ≤ b.toInt)

/-- A push and the pop after it (R127, R128, R129): for `4 ≤ ESP ≤ MEM_SIZE` the value comes back and ESP with it; for
any other ESP the push raises, but for ESP = 0 in a memory of 2^32 bytes, where `ESP - 4` wraps to an address inside
memory and the bounds rule R55 lets the push happen (log 22). -/
def Obligations.PushThenPop : Prop :=
  ∀ (s : State) (v : Word), s.Inv →
    (4 ≤ (s.reg .esp).toNat → (s.reg .esp).toNat ≤ s.mem.size →
      ∃ t u, s.push32 v = .ok t ∧ t.reg .esp = s.reg .esp - 4#32 ∧ t.mem.wordAt (t.reg .esp).toNat = v ∧
        t.pop32 = .ok (v, u) ∧ u.regs = s.regs ∧ u.mem = t.mem) ∧
    ((s.reg .esp).toNat < 4 ∨ s.mem.size < (s.reg .esp).toNat → ¬ (s.reg .esp = 0#32 ∧ s.mem.size = 2 ^ 32) →
      s.push32 v = .error (.outOfBounds (s.reg .esp - 4#32) 4 .write)) ∧
    (s.reg .esp = 0#32 → s.mem.size = 2 ^ 32 →
      ∃ t, s.push32 v = .ok t ∧ t.reg .esp = 0xFFFFFFFC#32 ∧ t.mem.wordAt 0xFFFFFFFC = v)

/-- The effective address of every memory form (R132, R133), modulo 2^32. -/
def Obligations.EffectiveAddress : Prop :=
  ∀ (s : State) (reg : BitVec 3) (b : Reg32) (d8 : Byte) (d32 : Word) (mode : SibMode) (sib : Byte),
    (MemForm.abs d32).ea s reg = .ok d32 ∧
    (MemForm.ind b).ea s reg = .ok (s.reg b) ∧
    (MemForm.disp8 b d8).ea s reg = .ok (s.reg b + d8.signExtend 32) ∧
    (MemForm.disp32 b d32).ea s reg = .ok (s.reg b + d32) ∧
    (MemForm.sib mode sib).ea s reg = .error (.unimplementedAddressing (modRMByte mode.toMod reg 4#3))

/-! ### 41_register_coded_and_stack -/

/-- PUSH r32 (R161): the old value of the register, ESP included, is stored at `ESP - 4`. -/
def Obligations.PushR32Rule : Prop :=
  ∀ (r : Reg32) (s : State),
    encode (.pushR32 r) = [0x50#8 + r.toBits.zeroExtend 8] ∧
    (s.mem.fits (s.reg .esp - 4#32) 4 → exec (.pushR32 r) s = .next { s with
      mem := s.mem.setWord (s.reg .esp - 4#32).toNat (s.reg r)
      regs := s.regs.set .esp (s.reg .esp - 4#32)
      pc := s.pc + 1#32 }) ∧
    (¬ s.mem.fits (s.reg .esp - 4#32) 4 →
      exec (.pushR32 r) s = .next { s with status := .fatal (.outOfBounds (s.reg .esp - 4#32) 4 .write) })

/-- POP r32 (R162): the register is written after ESP, so POP ESP leaves the popped value. -/
def Obligations.PopR32Rule : Prop :=
  ∀ (r : Reg32) (s : State),
    encode (.popR32 r) = [0x58#8 + r.toBits.zeroExtend 8] ∧
    (s.mem.fits (s.reg .esp) 4 → exec (.popR32 r) s = .next { s with
      regs := (s.regs.set .esp (s.reg .esp + 4#32)).set r (s.mem.wordAt (s.reg .esp).toNat)
      pc := s.pc + 1#32 }) ∧
    (¬ s.mem.fits (s.reg .esp) 4 →
      exec (.popR32 r) s = .next { s with status := .fatal (.outOfBounds (s.reg .esp) 4 .read) })

/-- INC r32 (R163): plus one modulo 2^32, no flag written (the spec's decision D3; log 7), no condition raised. -/
def Obligations.IncR32Rule : Prop :=
  ∀ (r : Reg32) (s : State),
    encode (.incR32 r) = [0x40#8 + r.toBits.zeroExtend 8] ∧
    exec (.incR32 r) s = .next { s with regs := s.regs.set r (s.reg r + 1#32), pc := s.pc + 1#32 }

/-- MOV r32, imm32 (R164). -/
def Obligations.MovR32Imm32Rule : Prop :=
  ∀ (r : Reg32) (imm : Word) (s : State),
    encode (.movR32Imm32 r imm) = [0xB8#8 + r.toBits.zeroExtend 8] ++ bytesOfWord imm ∧
    (s.mem.fits (s.pc + 1#32) 4 →
      exec (.movR32Imm32 r imm) s = .next { s with regs := s.regs.set r imm, pc := s.pc + 5#32 }) ∧
    (¬ s.mem.fits (s.pc + 1#32) 4 →
      exec (.movR32Imm32 r imm) s = .next { s with status := .fatal (.outOfBounds (s.pc + 1#32) 4 .fetch) })

/-- MOV r8, imm8 (R165): one byte of one register. -/
def Obligations.MovR8Imm8Rule : Prop :=
  ∀ (r : Reg8) (imm : Byte) (s : State),
    encode (.movR8Imm8 r imm) = [0xB0#8 + r.toBits.zeroExtend 8, imm] ∧
    (s.mem.fits (s.pc + 1#32) 1 →
      exec (.movR8Imm8 r imm) s = .next { s with regs := s.regs.set8 r imm, pc := s.pc + 2#32 }) ∧
    (¬ s.mem.fits (s.pc + 1#32) 1 →
      exec (.movR8Imm8 r imm) s = .next { s with status := .fatal (.outOfBounds (s.pc + 1#32) 1 .fetch) })

/-- PUSH imm8 (R166), sign-extended (the spec's decision D6; log 8), and PUSH imm32 (R167). -/
def Obligations.PushImmediateRule : Prop :=
  ∀ (imm8 : Byte) (imm32 : Word) (s : State),
    encode (.pushImm8 imm8) = [0x6A, imm8] ∧
    (firstFault [s.outside (s.pc + 1#32) 1 .fetch, s.outside (s.reg .esp - 4#32) 4 .write] = none →
      exec (.pushImm8 imm8) s = .next { s with
        mem := s.mem.setWord (s.reg .esp - 4#32).toNat (imm8.signExtend 32)
        regs := s.regs.set .esp (s.reg .esp - 4#32)
        pc := s.pc + 2#32 }) ∧
    (∀ c, firstFault [s.outside (s.pc + 1#32) 1 .fetch, s.outside (s.reg .esp - 4#32) 4 .write] = some c →
      exec (.pushImm8 imm8) s = .next { s with status := .fatal c }) ∧
    encode (.pushImm32 imm32) = [0x68] ++ bytesOfWord imm32 ∧
    (firstFault [s.outside (s.pc + 1#32) 4 .fetch, s.outside (s.reg .esp - 4#32) 4 .write] = none →
      exec (.pushImm32 imm32) s = .next { s with
        mem := s.mem.setWord (s.reg .esp - 4#32).toNat imm32
        regs := s.regs.set .esp (s.reg .esp - 4#32)
        pc := s.pc + 5#32 }) ∧
    (∀ c, firstFault [s.outside (s.pc + 1#32) 4 .fetch, s.outside (s.reg .esp - 4#32) 4 .write] = some c →
      exec (.pushImm32 imm32) s = .next { s with status := .fatal c })

/-! ### 42_opcode_groups -/

/-- ADD rm32, imm8 (R181): the sum modulo 2^32 with the sign-extended immediate; no flag written (the spec's decision
D2; log 7). Fatal conditions in the rule's order; the write cannot raise. -/
def Obligations.AddRm32Imm8Rule : Prop :=
  ∀ (rm : Rm Reg32) (imm : Byte) (s : State),
    encode (.addRm32Imm8 rm imm) = [0x83] ++ encodeRm32 0#3 rm ++ [imm] ∧
    (firstFault (modRMFaults s rm ++ sibFault 0#3 rm ++ accessFault s rm 4 .read ++
        [s.outside (s.pc + BitVec.ofNat 32 (1 + rm.size)) 1 .fetch]) = none →
      exec (.addRm32Imm8 rm imm) s = .next { s.storeRm32 rm (s.loadRm32 rm + imm.signExtend 32) with
        pc := s.pc + BitVec.ofNat 32 (2 + rm.size) }) ∧
    (∀ c, firstFault (modRMFaults s rm ++ sibFault 0#3 rm ++ accessFault s rm 4 .read ++
        [s.outside (s.pc + BitVec.ofNat 32 (1 + rm.size)) 1 .fetch]) = some c →
      exec (.addRm32Imm8 rm imm) s = .next { s with status := .fatal c })

/-- SUB rm32, imm8 (R182): the difference, and the four flags of `SubFlags(a, sext(imm8))`. -/
def Obligations.SubRm32Imm8Rule : Prop :=
  ∀ (rm : Rm Reg32) (imm : Byte) (s : State),
    encode (.subRm32Imm8 rm imm) = [0x83] ++ encodeRm32 5#3 rm ++ [imm] ∧
    (firstFault (modRMFaults s rm ++ sibFault 5#3 rm ++ accessFault s rm 4 .read ++
        [s.outside (s.pc + BitVec.ofNat 32 (1 + rm.size)) 1 .fetch]) = none →
      exec (.subRm32Imm8 rm imm) s = .next { s.storeRm32 rm (s.loadRm32 rm - imm.signExtend 32) with
        flags := subFlags s.flags (s.loadRm32 rm) (imm.signExtend 32)
        pc := s.pc + BitVec.ofNat 32 (2 + rm.size) }) ∧
    (∀ c, firstFault (modRMFaults s rm ++ sibFault 5#3 rm ++ accessFault s rm 4 .read ++
        [s.outside (s.pc + BitVec.ofNat 32 (1 + rm.size)) 1 .fetch]) = some c →
      exec (.subRm32Imm8 rm imm) s = .next { s with status := .fatal c })

/-- CMP rm32, imm8 (R183): flags only. -/
def Obligations.CmpRm32Imm8Rule : Prop :=
  ∀ (rm : Rm Reg32) (imm : Byte) (s : State),
    encode (.cmpRm32Imm8 rm imm) = [0x83] ++ encodeRm32 7#3 rm ++ [imm] ∧
    (firstFault (modRMFaults s rm ++ sibFault 7#3 rm ++ accessFault s rm 4 .read ++
        [s.outside (s.pc + BitVec.ofNat 32 (1 + rm.size)) 1 .fetch]) = none →
      exec (.cmpRm32Imm8 rm imm) s = .next { s with
        flags := subFlags s.flags (s.loadRm32 rm) (imm.signExtend 32)
        pc := s.pc + BitVec.ofNat 32 (2 + rm.size) }) ∧
    (∀ c, firstFault (modRMFaults s rm ++ sibFault 7#3 rm ++ accessFault s rm 4 .read ++
        [s.outside (s.pc + BitVec.ofNat 32 (1 + rm.size)) 1 .fetch]) = some c →
      exec (.cmpRm32Imm8 rm imm) s = .next { s with status := .fatal c })

/-- INC rm32 (R185): plus one modulo 2^32, no flag written (the spec's decision D3; log 7). -/
def Obligations.IncRm32Rule : Prop :=
  ∀ (rm : Rm Reg32) (s : State),
    encode (.incRm32 rm) = [0xFF] ++ encodeRm32 0#3 rm ∧
    (firstFault (modRMFaults s rm ++ sibFault 0#3 rm ++ accessFault s rm 4 .read) = none →
      exec (.incRm32 rm) s = .next { s.storeRm32 rm (s.loadRm32 rm + 1#32) with
        pc := s.pc + BitVec.ofNat 32 (1 + rm.size) }) ∧
    (∀ c, firstFault (modRMFaults s rm ++ sibFault 0#3 rm ++ accessFault s rm 4 .read) = some c →
      exec (.incRm32 rm) s = .next { s with status := .fatal c })

/-- MOV rm32, imm32 (R187): the SIB form raises before the immediate is fetched, the write after. -/
def Obligations.MovRm32Imm32Rule : Prop :=
  ∀ (rm : Rm Reg32) (imm : Word) (s : State),
    encode (.movRm32Imm32 rm imm) = [0xC7] ++ encodeRm32 0#3 rm ++ bytesOfWord imm ∧
    (firstFault (modRMFaults s rm ++ sibFault 0#3 rm ++
        [s.outside (s.pc + BitVec.ofNat 32 (1 + rm.size)) 4 .fetch] ++ accessFault s rm 4 .write) = none →
      exec (.movRm32Imm32 rm imm) s = .next { s.storeRm32 rm imm with
        pc := s.pc + BitVec.ofNat 32 (5 + rm.size) }) ∧
    (∀ c, firstFault (modRMFaults s rm ++ sibFault 0#3 rm ++
        [s.outside (s.pc + BitVec.ofNat 32 (1 + rm.size)) 4 .fetch] ++ accessFault s rm 4 .write) = some c →
      exec (.movRm32Imm32 rm imm) s = .next { s with status := .fatal c })

/-- The other sub-opcodes of `83` and `FF` (R184, R186): `UnimplementedSubOpcode`, after the addressing bytes have been
fetched and before anything else. That `C7` is such a group too (R188) is the spec's decision D13, and that the
sub-opcode is tested before the operand is accessed its decision D17 (log 17). -/
def Obligations.UnassignedSubOpcodesStop : Prop :=
  ∀ s : State, s.status = .running → s.pc.toNat < s.mem.size →
    unassignedSubOpcode (s.at s.pc) ((s.at (s.pc + 1#32)).extractLsb' 3 3) = true →
    (s.mem.fits (s.pc + 1#32) 1 →
      (tailLength (s.at (s.pc + 1#32)) = 0 ∨ s.mem.fits (s.pc + 2#32) (tailLength (s.at (s.pc + 1#32)))) →
      step s = .next { s with
        status := .fatal (.unimplementedSubOpcode (s.at s.pc) ((s.at (s.pc + 1#32)).extractLsb' 3 3)) }) ∧
    (s.mem.fits (s.pc + 1#32) 1 → tailLength (s.at (s.pc + 1#32)) ≠ 0 →
      ¬ s.mem.fits (s.pc + 2#32) (tailLength (s.at (s.pc + 1#32))) →
      step s = .next { s with
        status := .fatal (.outOfBounds (s.pc + 2#32) (tailLength (s.at (s.pc + 1#32))) .fetch) })

/-! ### 43_two_operand -/

/-- ADD rm32, r32 (R201): the old values summed modulo 2^32; no flag written (the spec's decision D2; log 7). -/
def Obligations.AddRm32R32Rule : Prop :=
  ∀ (rm : Rm Reg32) (r : Reg32) (s : State),
    encode (.addRm32R32 rm r) = [0x01] ++ encodeRm32 r.toBits rm ∧
    (firstFault (modRMFaults s rm ++ sibFault r.toBits rm ++ accessFault s rm 4 .read) = none →
      exec (.addRm32R32 rm r) s = .next { s.storeRm32 rm (s.loadRm32 rm + s.reg r) with
        pc := s.pc + BitVec.ofNat 32 (1 + rm.size) }) ∧
    (∀ c, firstFault (modRMFaults s rm ++ sibFault r.toBits rm ++ accessFault s rm 4 .read) = some c →
      exec (.addRm32R32 rm r) s = .next { s with status := .fatal c })

/-- CMP r32, rm32 (R202): flags of the register minus the rm operand. -/
def Obligations.CmpR32Rm32Rule : Prop :=
  ∀ (r : Reg32) (rm : Rm Reg32) (s : State),
    encode (.cmpR32Rm32 r rm) = [0x3B] ++ encodeRm32 r.toBits rm ∧
    (firstFault (modRMFaults s rm ++ sibFault r.toBits rm ++ accessFault s rm 4 .read) = none →
      exec (.cmpR32Rm32 r rm) s = .next { s with
        flags := subFlags s.flags (s.reg r) (s.loadRm32 rm)
        pc := s.pc + BitVec.ofNat 32 (1 + rm.size) }) ∧
    (∀ c, firstFault (modRMFaults s rm ++ sibFault r.toBits rm ++ accessFault s rm 4 .read) = some c →
      exec (.cmpR32Rm32 r rm) s = .next { s with status := .fatal c })

/-- MOV rm8, r8 (R203): one byte of a register or of memory. -/
def Obligations.MovRm8R8Rule : Prop :=
  ∀ (rm : Rm Reg8) (r : Reg8) (s : State),
    encode (.movRm8R8 rm r) = [0x88] ++ encodeRm8 r.toBits rm ∧
    (firstFault (modRMFaults s rm ++ sibFault r.toBits rm ++ accessFault s rm 1 .write) = none →
      exec (.movRm8R8 rm r) s = .next { s.storeRm8 rm (s.reg8 r) with
        pc := s.pc + BitVec.ofNat 32 (1 + rm.size) }) ∧
    (∀ c, firstFault (modRMFaults s rm ++ sibFault r.toBits rm ++ accessFault s rm 1 .write) = some c →
      exec (.movRm8R8 rm r) s = .next { s with status := .fatal c })

/-- MOV rm32, r32 (R204). -/
def Obligations.MovRm32R32Rule : Prop :=
  ∀ (rm : Rm Reg32) (r : Reg32) (s : State),
    encode (.movRm32R32 rm r) = [0x89] ++ encodeRm32 r.toBits rm ∧
    (firstFault (modRMFaults s rm ++ sibFault r.toBits rm ++ accessFault s rm 4 .write) = none →
      exec (.movRm32R32 rm r) s = .next { s.storeRm32 rm (s.reg r) with
        pc := s.pc + BitVec.ofNat 32 (1 + rm.size) }) ∧
    (∀ c, firstFault (modRMFaults s rm ++ sibFault r.toBits rm ++ accessFault s rm 4 .write) = some c →
      exec (.movRm32R32 rm r) s = .next { s with status := .fatal c })

/-- MOV r8, rm8 (R205): one byte of one register. -/
def Obligations.MovR8Rm8Rule : Prop :=
  ∀ (r : Reg8) (rm : Rm Reg8) (s : State),
    encode (.movR8Rm8 r rm) = [0x8A] ++ encodeRm8 r.toBits rm ∧
    (firstFault (modRMFaults s rm ++ sibFault r.toBits rm ++ accessFault s rm 1 .read) = none →
      exec (.movR8Rm8 r rm) s = .next { s with
        regs := s.regs.set8 r (s.loadRm8 rm)
        pc := s.pc + BitVec.ofNat 32 (1 + rm.size) }) ∧
    (∀ c, firstFault (modRMFaults s rm ++ sibFault r.toBits rm ++ accessFault s rm 1 .read) = some c →
      exec (.movR8Rm8 r rm) s = .next { s with status := .fatal c })

/-- MOV r32, rm32 (R206). -/
def Obligations.MovR32Rm32Rule : Prop :=
  ∀ (r : Reg32) (rm : Rm Reg32) (s : State),
    encode (.movR32Rm32 r rm) = [0x8B] ++ encodeRm32 r.toBits rm ∧
    (firstFault (modRMFaults s rm ++ sibFault r.toBits rm ++ accessFault s rm 4 .read) = none →
      exec (.movR32Rm32 r rm) s = .next { s with
        regs := s.regs.set r (s.loadRm32 rm)
        pc := s.pc + BitVec.ofNat 32 (1 + rm.size) }) ∧
    (∀ c, firstFault (modRMFaults s rm ++ sibFault r.toBits rm ++ accessFault s rm 4 .read) = some c →
      exec (.movR32Rm32 r rm) s = .next { s with status := .fatal c })

/-- CMP AL, imm8 (R207): the 32-bit flags engine on the zero-extended bytes (the spec's decision D15; log 9), and what
follows for the four flags. -/
def Obligations.CmpAlImm8Rule : Prop :=
  ∀ (imm : Byte) (s : State),
    encode (.cmpAlImm8 imm) = [0x3C, imm] ∧
    (s.mem.fits (s.pc + 1#32) 1 → exec (.cmpAlImm8 imm) s = .next { s with
      flags := subFlags s.flags ((s.regs.eax.extractLsb' 0 8).zeroExtend 32) (imm.zeroExtend 32)
      pc := s.pc + 2#32 }) ∧
    (∀ t, s.mem.fits (s.pc + 1#32) 1 → exec (.cmpAlImm8 imm) s = .next t →
      isCarry t.flags = decide ((s.regs.eax.extractLsb' 0 8).toNat < imm.toNat) ∧
      isZero t.flags = decide (s.regs.eax.extractLsb' 0 8 = imm) ∧
      isSign t.flags = decide ((s.regs.eax.extractLsb' 0 8).toNat < imm.toNat) ∧ isOverflow t.flags = false) ∧
    (¬ s.mem.fits (s.pc + 1#32) 1 →
      exec (.cmpAlImm8 imm) s = .next { s with status := .fatal (.outOfBounds (s.pc + 1#32) 1 .fetch) })

/-- CMP EAX, imm32 (R208). -/
def Obligations.CmpEaxImm32Rule : Prop :=
  ∀ (imm : Word) (s : State),
    encode (.cmpEaxImm32 imm) = [0x3D] ++ bytesOfWord imm ∧
    (s.mem.fits (s.pc + 1#32) 4 → exec (.cmpEaxImm32 imm) s = .next { s with
      flags := subFlags s.flags s.regs.eax imm
      pc := s.pc + 5#32 }) ∧
    (¬ s.mem.fits (s.pc + 1#32) 4 →
      exec (.cmpEaxImm32 imm) s = .next { s with status := .fatal (.outOfBounds (s.pc + 1#32) 4 .fetch) })

/-! ### 44_control_transfer -/

/-- JMP rel8 (R221) and JMP rel32 (R222): the offset is added to the address of the next instruction, modulo 2^32. -/
def Obligations.JumpRule : Prop :=
  ∀ (rel8 : Byte) (rel32 : Word) (s : State),
    encode (.jmpRel8 rel8) = [0xEB, rel8] ∧
    (s.mem.fits (s.pc + 1#32) 1 →
      exec (.jmpRel8 rel8) s = .next { s with pc := s.pc + 2#32 + rel8.signExtend 32 }) ∧
    (¬ s.mem.fits (s.pc + 1#32) 1 →
      exec (.jmpRel8 rel8) s = .next { s with status := .fatal (.outOfBounds (s.pc + 1#32) 1 .fetch) }) ∧
    encode (.jmpRel32 rel32) = [0xE9] ++ bytesOfWord rel32 ∧
    (s.mem.fits (s.pc + 1#32) 4 → exec (.jmpRel32 rel32) s = .next { s with pc := s.pc + 5#32 + rel32 }) ∧
    (¬ s.mem.fits (s.pc + 1#32) 4 →
      exec (.jmpRel32 rel32) s = .next { s with status := .fatal (.outOfBounds (s.pc + 1#32) 4 .fetch) })

/-- CALL rel32 (R223): the return address is pushed, then the jump. -/
def Obligations.CallRule : Prop :=
  ∀ (rel : Word) (s : State),
    encode (.callRel32 rel) = [0xE8] ++ bytesOfWord rel ∧
    (firstFault [s.outside (s.pc + 1#32) 4 .fetch, s.outside (s.reg .esp - 4#32) 4 .write] = none →
      exec (.callRel32 rel) s = .next { s with
        mem := s.mem.setWord (s.reg .esp - 4#32).toNat (s.pc + 5#32)
        regs := s.regs.set .esp (s.reg .esp - 4#32)
        pc := s.pc + 5#32 + rel }) ∧
    (∀ c, firstFault [s.outside (s.pc + 1#32) 4 .fetch, s.outside (s.reg .esp - 4#32) 4 .write] = some c →
      exec (.callRel32 rel) s = .next { s with status := .fatal c })

/-- RET (R224). -/
def Obligations.RetRule : Prop :=
  ∀ s : State,
    encode .ret = [0xC3] ∧
    (s.mem.fits (s.reg .esp) 4 → exec .ret s = .next { s with
      regs := s.regs.set .esp (s.reg .esp + 4#32)
      pc := s.mem.wordAt (s.reg .esp).toNat }) ∧
    (¬ s.mem.fits (s.reg .esp) 4 →
      exec .ret s = .next { s with status := .fatal (.outOfBounds (s.reg .esp) 4 .read) })

/-- LEAVE (R228): ESP from the old EBP, EBP from memory there; the old ESP is not used. -/
def Obligations.LeaveRule : Prop :=
  ∀ s : State,
    encode .leave = [0xC9] ∧
    (s.mem.fits (s.reg .ebp) 4 → exec .leave s = .next { s with
      regs := { s.regs with esp := s.reg .ebp + 4#32, ebp := s.mem.wordAt (s.reg .ebp).toNat }
      pc := s.pc + 1#32 }) ∧
    (¬ s.mem.fits (s.reg .ebp) 4 →
      exec .leave s = .next { s with status := .fatal (.outOfBounds (s.reg .ebp) 4 .read) })

/-! ### 45_conditional_jumps -/

/-- The ten conditional jumps (R240 to R251), each with its opcode and its condition on the flag bits: the offset byte
is fetched, and can raise, only when the jump is taken. -/
def Obligations.ConditionalJumpRule : Prop :=
  ∀ (rel : Byte) (s : State) (i : Instr) (op : Byte) (cond : Bool),
    (i, op, cond) ∈
      [(Instr.jo rel, 0x70#8, s.flags.getLsbD 11), (.jno rel, 0x71#8, !s.flags.getLsbD 11),
       (.jc rel, 0x72#8, s.flags.getLsbD 0), (.jnc rel, 0x73#8, !s.flags.getLsbD 0),
       (.jz rel, 0x74#8, s.flags.getLsbD 6), (.jnz rel, 0x75#8, !s.flags.getLsbD 6),
       (.js rel, 0x78#8, s.flags.getLsbD 7), (.jns rel, 0x79#8, !s.flags.getLsbD 7),
       (.jl rel, 0x7C#8, s.flags.getLsbD 7 != s.flags.getLsbD 11),
       (.jle rel, 0x7E#8, s.flags.getLsbD 6 || (s.flags.getLsbD 7 != s.flags.getLsbD 11))] →
    encode i = [op, rel] ∧
    (cond = false → exec i s = .next { s with pc := s.pc + 2#32 }) ∧
    (cond = true → s.mem.fits (s.pc + 1#32) 1 →
      exec i s = .next { s with pc := s.pc + 2#32 + rel.signExtend 32 }) ∧
    (cond = true → ¬ s.mem.fits (s.pc + 1#32) 1 →
      exec i s = .next { s with status := .fatal (.outOfBounds (s.pc + 1#32) 1 .fetch) })

/-! ### 46_port_io -/

/-- IN AL, DX (R260): one `PortIn8` at the low 16 bits of EDX (the spec's decision D11; log 14); AL takes the answer,
whatever byte it is, and the call is recorded (the list of calls is the model's record of R263's events; log 11). -/
def Obligations.InRule : Prop :=
  ∀ (s : State) (v : Byte), s.portAnswer (s.regs.edx.extractLsb' 0 16) = v →
    encode .inAlDx = [0xEC] ∧
    exec .inAlDx s = .next { s with
      regs := s.regs.set8 .al v
      pc := s.pc + 1#32
      portEvents := s.portEvents ++ [.in8 (s.regs.edx.extractLsb' 0 16) v]
      portAnswers := s.portAnswers.tail
      portReads := s.portReads + 1 }

/-- OUT DX, AL (R261): one `PortOut8` at the low 16 bits of EDX with AL (the spec's decision D11; log 14), recorded
(log 11); only `pc` changes otherwise. -/
def Obligations.OutRule : Prop :=
  ∀ s : State,
    encode .outDxAl = [0xEE] ∧
    exec .outDxAl s = .next { s with
      pc := s.pc + 1#32
      portEvents := s.portEvents ++ [.out8 (s.regs.edx.extractLsb' 0 16) (s.regs.eax.extractLsb' 0 8)] }

/-! ### Frames -/

/-- What `exec` leaves alone, in the registers, for every instruction: a register that is neither the destination nor
one the rule says is written (`Instr.writesReg` names them). -/
def Obligations.RegisterFrame : Prop :=
  ∀ (i : Instr) (s t : State) (r : Reg32), exec i s = .next t → i.writesReg r = false → t.reg r = s.reg r

/-- The frame of memory, for every instruction: every byte outside the bytes stored reads as before, all of memory for
a form that stores nothing; `MEM_SIZE` never changes. `Instr.storesAt` computes where a form stores. -/
def Obligations.MemoryFrame : Prop :=
  ∀ (i : Instr) (s t : State), exec i s = .next t →
    t.mem.size = s.mem.size ∧
    (∀ p n, i.storesAt s = some (p, n) → ∀ a, (a < p.toNat ∨ p.toNat + n ≤ a) → t.mem.byteAt a = s.mem.byteAt a) ∧
    (i.storesAt s = none → ∀ a, t.mem.byteAt a = s.mem.byteAt a)

/-- The frame of `flags` (10_state R31): only SUB and the four CMP forms write them, and they write no bit but the four
defined ones. -/
def Obligations.FlagsFrame : Prop :=
  ∀ (i : Instr) (s t : State), exec i s = .next t →
    (i.writesFlags = false → t.flags = s.flags) ∧
    ∀ k, k ≠ 0 → k ≠ 6 → k ≠ 7 → k ≠ 11 → t.flags.getLsbD k = s.flags.getLsbD k

/-- The frame of the port boundary (46_port_io R263 (d)): exactly one call per executed IN or OUT, none for any other
instruction, and nothing already called is forgotten. -/
def Obligations.PortFrame : Prop :=
  ∀ (i : Instr) (s t : State), exec i s = .next t →
    (i.callsPort = true → ∃ e, t.portEvents = s.portEvents ++ [e]) ∧
    (i.callsPort = false → t.portEvents = s.portEvents ∧ t.portAnswers = s.portAnswers ∧ t.portReads = s.portReads)

/-- `pc` after an instruction that does not transfer control (10_state R27): `pc0` plus the encoded length, unless the
instruction raised a fatal condition, which leaves `pc` and all else as it was. -/
def Obligations.SequentialPc : Prop :=
  ∀ (i : Instr) (s t : State), i.transfersControl = false → exec i s = .next t →
    (∃ c, t = { s with status := .fatal c }) ∨
    (t.status = s.status ∧ t.pc = s.pc + BitVec.ofNat 32 (encode i).length)

/-! ### The cycle as a whole -/

/-- The range test (60_exceptions R278): a cycle that begins with `pc` not below `MEM_SIZE` stops and changes nothing
else. -/
def Obligations.PcOutOfRangeStops : Prop :=
  ∀ s : State, s.status = .running → s.mem.size ≤ s.pc.toNat →
    step s = .next { s with status := .stopPcRange s.pc }

/-- The normal halt (R277): an instruction that completes and leaves `pc = 0` stops the core, with all its effects
kept. -/
def Obligations.PcZeroHalts : Prop :=
  ∀ (s t : State) (i : Instr) (rest : List Byte), s.status = .running → s.pc.toNat < s.mem.size →
    decode s.window = .ok (i, rest) → exec i s = .next t → t.status = .running →
    (t.pc = 0#32 → step s = .next { t with status := .haltNormal }) ∧ (t.pc ≠ 0#32 → step s = .next t)

/-- A stopped core runs no cycle and keeps all its state (10_state R40, R286). That a step of a stopped core is a step
that changes nothing is the model's choice (log 2). -/
def Obligations.StoppedCoreStays : Prop :=
  ∀ s : State, s.status ≠ .running → step s = .next s

/-- Totality (30_encoding R107): a running core with `pc` inside memory either executes one admitted instruction or
stops with one fatal condition; no byte sequence is undefined. -/
def Obligations.EveryCycleHasOneOutcome : Prop :=
  ∀ s : State, s.status = .running → s.pc.toNat < s.mem.size →
    (∃ i rest t, decode s.window = .ok (i, rest) ∧ i.wellFormed = true ∧ exec i s = .next t ∧
      t.status = .running ∧ step s = .next t.haltAtZero) ∨
    ∃ c, step s = .next { s with status := .fatal c }

/-- Fatal conditions commit nothing (60_exceptions R272): registers, flags, `pc`, every byte of memory and the port
calls are exactly as they were when the cycle began. -/
def Obligations.FatalCommitsNothing : Prop :=
  ∀ (s t : State) (c : Condition), s.status = .running → step s = .next t → t.status = .fatal c →
    t = { s with status := .fatal c }

/-- Every step keeps the invariant: memory in canonical form, a legal and unchanged `MEM_SIZE`. -/
def Obligations.StepKeepsInvariant : Prop :=
  ∀ s t : State, s.Inv → step s = .next t → t.Inv ∧ t.mem.size = s.mem.size

/-- The state after reset meets the invariant, and its status is true of it. -/
def Obligations.ResetMeetsInvariants : Prop := State.reset.Inv ∧ State.reset.StatusTrue

/-- Every step leaves a status that is true of the state it stands in (R40, R271, R277, R278): `pc = 0` for the normal
halt, `pc` not below `MEM_SIZE` for the range stop, the bytes at `pc` for the three conditions that record them; for
`OutOfBounds`, that an access of the recorded length (1 or 4) at the recorded address does not fit in memory. -/
def Obligations.StatusTellsTheTruth : Prop :=
  ∀ s t : State, s.StatusTrue → step s = .next t → t.StatusTrue

/-- The 28 reserved bits of `flags` keep their value (10_state R33) and the port calls already made stay made (R263),
through every step from every state. -/
def Obligations.ReservedFlagsAndEventsPersist : Prop :=
  ∀ s t : State, step s = .next t →
    t.flags &&& 0xFFFFF73E#32 = s.flags &&& 0xFFFFF73E#32 ∧
    (t.portEvents = s.portEvents ∨ ∃ e, t.portEvents = s.portEvents ++ [e])
end

