-- ==== Sys2Proof/Laws/Decode.lean ====
section
/-! SUPPORT. The small laws of the encoding: words and their bytes, register fields, the fields of a ModR/M byte. -/

namespace Sys2Proof

/-! ### Bytes and words -/

theorem getLsbD_wordOfBytes (b0 b1 b2 b3 : Byte) (i : Nat) : (wordOfBytes b0 b1 b2 b3).getLsbD i =
    if i < 8 then b0.getLsbD i else if i - 8 < 8 then b1.getLsbD (i - 8)
    else if i - 8 - 8 < 8 then b2.getLsbD (i - 8 - 8) else b3.getLsbD (i - 8 - 8 - 8) := by
  simp only [wordOfBytes, BitVec.getLsbD_append]

theorem getLsbD_byteOfWord (w : Word) (k i : Nat) (h : i < 8) :
    (byteOfWord w k).getLsbD i = w.getLsbD (8 * k + i) := by
  simp [byteOfWord, h]

@[simp] theorem wordOfBytes_byteOfWord (w : Word) :
    wordOfBytes (byteOfWord w 0) (byteOfWord w 1) (byteOfWord w 2) (byteOfWord w 3) = w := by
  apply BitVec.eq_of_getLsbD_eq
  intro i hi
  rw [getLsbD_wordOfBytes]
  split
  · rw [getLsbD_byteOfWord _ _ _ (by omega)]
    congr 1
    omega
  · split
    · rw [getLsbD_byteOfWord _ _ _ (by omega)]
      congr 1
      omega
    · split <;> rw [getLsbD_byteOfWord _ _ _ (by omega)] <;> congr 1 <;> omega

@[simp] theorem byteOfWord_wordOfBytes_0 (b0 b1 b2 b3 : Byte) : byteOfWord (wordOfBytes b0 b1 b2 b3) 0 = b0 := by
  apply BitVec.eq_of_getLsbD_eq
  intro i hi
  rw [getLsbD_byteOfWord _ _ _ hi, getLsbD_wordOfBytes, if_pos (by omega)]
  congr 1
  omega

@[simp] theorem byteOfWord_wordOfBytes_1 (b0 b1 b2 b3 : Byte) : byteOfWord (wordOfBytes b0 b1 b2 b3) 1 = b1 := by
  apply BitVec.eq_of_getLsbD_eq
  intro i hi
  rw [getLsbD_byteOfWord _ _ _ hi, getLsbD_wordOfBytes, if_neg (by omega), if_pos (by omega)]
  congr 1
  omega

@[simp] theorem byteOfWord_wordOfBytes_2 (b0 b1 b2 b3 : Byte) : byteOfWord (wordOfBytes b0 b1 b2 b3) 2 = b2 := by
  apply BitVec.eq_of_getLsbD_eq
  intro i hi
  rw [getLsbD_byteOfWord _ _ _ hi, getLsbD_wordOfBytes, if_neg (by omega), if_neg (by omega), if_pos (by omega)]
  congr 1
  omega

@[simp] theorem byteOfWord_wordOfBytes_3 (b0 b1 b2 b3 : Byte) : byteOfWord (wordOfBytes b0 b1 b2 b3) 3 = b3 := by
  apply BitVec.eq_of_getLsbD_eq
  intro i hi
  rw [getLsbD_byteOfWord _ _ _ hi, getLsbD_wordOfBytes, if_neg (by omega), if_neg (by omega), if_neg (by omega)]
  congr 1
  omega

@[simp] theorem bytesOfWord_wordOfBytes (b0 b1 b2 b3 : Byte) :
    bytesOfWord (wordOfBytes b0 b1 b2 b3) = [b0, b1, b2, b3] := by
  simp [bytesOfWord]

@[simp] theorem length_bytesOfWord (w : Word) : (bytesOfWord w).length = 4 := rfl

/-! ### Register fields -/

@[simp] theorem Reg32.ofBits_toBits (r : Reg32) : Reg32.ofBits r.toBits = r := by cases r <;> rfl

@[simp] theorem Reg32.toBits_ofBits : ∀ b : BitVec 3, (Reg32.ofBits b).toBits = b := by decide

@[simp] theorem Reg8.ofBits_toBits (r : Reg8) : Reg8.ofBits r.toBits = r := by cases r <;> rfl

@[simp] theorem Reg8.toBits_ofBits : ∀ b : BitVec 3, (Reg8.ofBits b).toBits = b := by decide

theorem Reg32.toBits_ne_four {r : Reg32} (h : r ≠ .esp) : r.toBits ≠ 4#3 := by
  revert h
  cases r <;> decide

theorem Reg32.toBits_ne_five {r : Reg32} (h : r ≠ .ebp) : r.toBits ≠ 5#3 := by
  revert h
  cases r <;> decide

theorem Reg32.ofBits_ne_esp : ∀ {b : BitVec 3}, b ≠ 4#3 → Reg32.ofBits b ≠ .esp := by decide

theorem Reg32.ofBits_ne_ebp : ∀ {b : BitVec 3}, b ≠ 5#3 → Reg32.ofBits b ≠ .ebp := by decide

@[simp] theorem Rm.map_toBits_ofBits32 (rm : Rm (BitVec 3)) : (rm.map Reg32.ofBits).map Reg32.toBits = rm := by
  cases rm <;> simp [Rm.map]

@[simp] theorem Rm.map_ofBits_toBits32 (rm : Rm Reg32) : (rm.map Reg32.toBits).map Reg32.ofBits = rm := by
  cases rm <;> simp [Rm.map]

@[simp] theorem Rm.map_toBits_ofBits8 (rm : Rm (BitVec 3)) : (rm.map Reg8.ofBits).map Reg8.toBits = rm := by
  cases rm <;> simp [Rm.map]

@[simp] theorem Rm.map_ofBits_toBits8 (rm : Rm Reg8) : (rm.map Reg8.toBits).map Reg8.ofBits = rm := by
  cases rm <;> simp [Rm.map]

@[simp] theorem Rm.wellFormed_map {ρ σ : Type} (f : ρ → σ) (rm : Rm ρ) :
    (rm.map f).wellFormed = rm.wellFormed := by
  cases rm <;> rfl

/-! ### The ModR/M byte (R88) -/

@[simp] theorem modRMByte_mod : ∀ (mod : BitVec 2) (reg rm : BitVec 3),
    (modRMByte mod reg rm).extractLsb' 6 2 = mod := by decide

@[simp] theorem modRMByte_reg : ∀ (mod : BitVec 2) (reg rm : BitVec 3),
    (modRMByte mod reg rm).extractLsb' 3 3 = reg := by decide

@[simp] theorem modRMByte_rm : ∀ (mod : BitVec 2) (reg rm : BitVec 3),
    (modRMByte mod reg rm).extractLsb' 0 3 = rm := by decide

/-- A byte is made of its three fields. -/
theorem modRMByte_fields : ∀ b : Byte,
    modRMByte (b.extractLsb' 6 2) (b.extractLsb' 3 3) (b.extractLsb' 0 3) = b := by decide

/-! ### Fields of a byte string -/

@[simp] theorem withByte_cons {α : Type} (b : Byte) (rest : List Byte) (k : Byte → List Byte → Except Reject α) :
    withByte (b :: rest) k = k b rest := rfl

@[simp] theorem withWord_bytesOfWord {α : Type} (w : Word) (rest : List Byte)
    (k : Word → List Byte → Except Reject α) : withWord (bytesOfWord w ++ rest) k = k w rest := by
  simp [withWord, bytesOfWord]

/-- The addressing bytes of a well-formed operand are read back whole. -/
theorem withModRM_encode {α : Type} {rm : Rm (BitVec 3)} (h : rm.wellFormed = true) (reg : BitVec 3) (rest : List Byte)
    (k : BitVec 3 → Rm (BitVec 3) → List Byte → Except Reject α) :
    withModRM (encodeModRM reg rm ++ rest) k = k reg rm rest := by
  cases rm with
  | reg r => simp [encodeModRM, withModRM]
  | mem m =>
    cases m with
    | ind b =>
      have h : b ≠ .esp ∧ b ≠ .ebp := by simpa [Rm.wellFormed, MemForm.wellFormed] using h
      simp [encodeModRM, withModRM, MemForm.modRM, MemForm.tail, Reg32.toBits_ne_four h.1, Reg32.toBits_ne_five h.2]
    | abs d => simp [encodeModRM, withModRM, MemForm.modRM, MemForm.tail]
    | disp8 b d =>
      have h : b ≠ .esp := by simpa [Rm.wellFormed, MemForm.wellFormed] using h
      simp [encodeModRM, withModRM, MemForm.modRM, MemForm.tail, Reg32.toBits_ne_four h]
    | disp32 b d =>
      have h : b ≠ .esp := by simpa [Rm.wellFormed, MemForm.wellFormed] using h
      simp [encodeModRM, withModRM, MemForm.modRM, MemForm.tail, Reg32.toBits_ne_four h]
    | sib m b => cases m <;> simp [encodeModRM, withModRM, MemForm.modRM, MemForm.tail, SibMode.toMod]

/-- Four bytes are there, and are those of a word, or the byte string is truncated. -/
theorem withWord_cases (bs : List Byte) : (∃ w rest, bs = bytesOfWord w ++ rest) ∨
    bs.length < 4 ∧ ∀ {α : Type} (k : Word → List Byte → Except Reject α), withWord bs k = .error .truncated := by
  match bs with
  | b0 :: b1 :: b2 :: b3 :: rest => exact .inl ⟨wordOfBytes b0 b1 b2 b3, rest, by simp⟩
  | [] => exact .inr ⟨by simp, fun _ => rfl⟩
  | [_] => exact .inr ⟨by simp, fun _ => rfl⟩
  | [_, _] => exact .inr ⟨by simp, fun _ => rfl⟩
  | [_, _, _] => exact .inr ⟨by simp, fun _ => rfl⟩

theorem withWord_eq_ok {α : Type} {bs : List Byte} {k : Word → List Byte → Except Reject α} {x : α}
    (h : withWord bs k = .ok x) : ∃ w rest, bs = bytesOfWord w ++ rest ∧ k w rest = .ok x := by
  rcases withWord_cases bs with ⟨w, rest, rfl⟩ | ⟨-, h'⟩
  · exact ⟨w, rest, rfl, by simpa using h⟩
  · rw [h'] at h
    cases h

theorem withByte_eq_ok {α : Type} {bs : List Byte} {k : Byte → List Byte → Except Reject α} {x : α}
    (h : withByte bs k = .ok x) : ∃ b rest, bs = b :: rest ∧ k b rest = .ok x := by
  match bs with
  | b :: rest => exact ⟨b, rest, rfl, h⟩
  | [] => cases h

/-- The bytes start with the addressing bytes of a well-formed operand, or they are truncated. -/
theorem withModRM_cases (bs : List Byte) :
    (∃ reg rm rest, rm.wellFormed = true ∧ bs = encodeModRM reg rm ++ rest) ∨
    bs.length < 5 ∧ ∀ {α : Type} (k : BitVec 3 → Rm (BitVec 3) → List Byte → Except Reject α),
      withModRM bs k = .error .truncated := by
  match bs with
  | [] => exact .inr ⟨by simp, fun _ => rfl⟩
  | b :: rest =>
    have hb := modRMByte_fields b
    generalize hm : b.extractLsb' 6 2 = mod at hb
    generalize hr : b.extractLsb' 3 3 = reg at hb
    generalize hq : b.extractLsb' 0 3 = rm at hb
    by_cases h3 : mod = 3#2
    · exact .inl ⟨reg, .reg rm, rest, rfl, by simp [encodeModRM, ← hb, h3]⟩
    by_cases h4 : rm = 4#3
    · match rest with
      | [] => exact .inr ⟨by simp, fun k => by simp [withModRM, hm, hq, h3, h4, withByte]⟩
      | sib :: rest =>
        refine .inl ⟨reg, .mem (.sib (if mod = 0#2 then .mod0 else if mod = 1#2 then .mod1 else .mod2) sib), rest,
          rfl, ?_⟩
        have hs : ∀ m : BitVec 2, m ≠ 3#2 →
            (if m = 0#2 then SibMode.mod0 else if m = 1#2 then .mod1 else .mod2).toMod = m := by decide
        simp only [encodeModRM, MemForm.modRM, MemForm.tail, List.cons_append, List.nil_append, hs mod h3, ← h4, hb]
    by_cases h2 : mod = 2#2
    · rcases withWord_cases rest with ⟨w, rest, rfl⟩ | ⟨hl, h'⟩
      · exact .inl ⟨reg, .mem (.disp32 (.ofBits rm) w), rest,
          by simp [Rm.wellFormed, MemForm.wellFormed, Reg32.ofBits_ne_esp h4],
          by simp [encodeModRM, MemForm.modRM, MemForm.tail, ← hb, h2]⟩
      · exact .inr ⟨by simp; omega, fun k => by simp [withModRM, hm, hq, h4, h2, h']⟩
    by_cases h1 : mod = 1#2
    · match rest with
      | [] => exact .inr ⟨by simp, fun k => by simp [withModRM, hm, hq, h4, h1, withByte]⟩
      | d :: rest =>
        exact .inl ⟨reg, .mem (.disp8 (.ofBits rm) d), rest,
          by simp [Rm.wellFormed, MemForm.wellFormed, Reg32.ofBits_ne_esp h4],
          by simp [encodeModRM, MemForm.modRM, MemForm.tail, ← hb, h1]⟩
    have h0 : mod = 0#2 := by
      have all : ∀ m : BitVec 2, m ≠ 3#2 → m ≠ 2#2 → m ≠ 1#2 → m = 0#2 := by decide
      exact all mod h3 h2 h1
    by_cases h5 : rm = 5#3
    · rcases withWord_cases rest with ⟨w, rest, rfl⟩ | ⟨hl, h'⟩
      · exact .inl ⟨reg, .mem (.abs w), rest, rfl,
          by simp [encodeModRM, MemForm.modRM, MemForm.tail, ← hb, h0, h5]⟩
      · exact .inr ⟨by simp; omega, fun k => by simp [withModRM, hm, hq, h0, h5, h']⟩
    · exact .inl ⟨reg, .mem (.ind (.ofBits rm)), rest,
        by simp [Rm.wellFormed, MemForm.wellFormed, Reg32.ofBits_ne_esp h4, Reg32.ofBits_ne_ebp h5],
        by simp [encodeModRM, MemForm.modRM, MemForm.tail, ← hb, h0]⟩

theorem withModRM_eq_ok {α : Type} {bs : List Byte} {k : BitVec 3 → Rm (BitVec 3) → List Byte → Except Reject α}
    {x : α} (h : withModRM bs k = .ok x) :
    ∃ reg rm rest, rm.wellFormed = true ∧ bs = encodeModRM reg rm ++ rest ∧ k reg rm rest = .ok x := by
  rcases withModRM_cases bs with ⟨reg, rm, rest, hw, rfl⟩ | ⟨-, h'⟩
  · exact ⟨reg, rm, rest, hw, rfl, by rwa [withModRM_encode hw] at h⟩
  · rw [h'] at h
    cases h

/-- What can go wrong after enough bytes is not truncation. -/
theorem withByte_ne_truncated {α : Type} {bs : List Byte} {k : Byte → List Byte → Except Reject α}
    (hl : 1 ≤ bs.length) (hk : ∀ b rest, bs = b :: rest → k b rest ≠ .error .truncated) :
    withByte bs k ≠ .error .truncated := by
  match bs with
  | b :: rest => exact hk b rest rfl
  | [] => simp at hl

theorem withWord_ne_truncated {α : Type} {bs : List Byte} {k : Word → List Byte → Except Reject α}
    (hl : 4 ≤ bs.length) (hk : ∀ w rest, k w rest ≠ .error .truncated) : withWord bs k ≠ .error .truncated := by
  rcases withWord_cases bs with ⟨w, rest, rfl⟩ | ⟨h, -⟩
  · simpa using hk w rest
  · omega

theorem withModRM_ne_truncated {α : Type} {bs : List Byte} {k : BitVec 3 → Rm (BitVec 3) → List Byte → Except Reject α}
    (hl : 5 ≤ bs.length) (hk : ∀ reg rm rest, bs.length ≤ rest.length + 5 → k reg rm rest ≠ .error .truncated) :
    withModRM bs k ≠ .error .truncated := by
  rcases withModRM_cases bs with ⟨reg, rm, rest, hw, rfl⟩ | ⟨h, -⟩
  · rw [withModRM_encode hw]
    refine hk reg rm rest ?_
    have hb : (encodeModRM reg rm).length ≤ 5 := by
      cases rm with
      | reg r => simp [encodeModRM]
      | mem m => cases m <;> simp [encodeModRM, MemForm.tail]
    simp only [List.length_append]
    omega
  · omega

/-! ### The dispatch table -/

/-- The register-coded opcode bytes (R84, R101). -/
theorem dispatch_regOpcode : ∀ r : BitVec 3,
    dispatch (regOpcode 0x40#8 r) = some (.incR32 r) ∧ dispatch (regOpcode 0x50#8 r) = some (.pushR32 r) ∧
    dispatch (regOpcode 0x58#8 r) = some (.popR32 r) ∧ dispatch (regOpcode 0xB0#8 r) = some (.movR8Imm8 r) ∧
    dispatch (regOpcode 0xB8#8 r) = some (.movR32Imm32 r) := by decide

/-- The opcode byte of each handler (R101). -/
def Handler.opcode : Handler → Byte
  | .addRm32R32 => 0x01#8
  | .cmpR32Rm32 => 0x3B#8
  | .cmpAlImm8 => 0x3C#8
  | .cmpEaxImm32 => 0x3D#8
  | .incR32 r => regOpcode 0x40#8 r
  | .pushR32 r => regOpcode 0x50#8 r
  | .popR32 r => regOpcode 0x58#8 r
  | .pushImm32 => 0x68#8
  | .pushImm8 => 0x6A#8
  | .jo => 0x70#8
  | .jno => 0x71#8
  | .jc => 0x72#8
  | .jnc => 0x73#8
  | .jz => 0x74#8
  | .jnz => 0x75#8
  | .js => 0x78#8
  | .jns => 0x79#8
  | .jl => 0x7C#8
  | .jle => 0x7E#8
  | .group83 => 0x83#8
  | .movRm8R8 => 0x88#8
  | .movRm32R32 => 0x89#8
  | .movR8Rm8 => 0x8A#8
  | .movR32Rm32 => 0x8B#8
  | .movR8Imm8 r => regOpcode 0xB0#8 r
  | .movR32Imm32 r => regOpcode 0xB8#8 r
  | .ret => 0xC3#8
  | .groupC7 => 0xC7#8
  | .leave => 0xC9#8
  | .callRel32 => 0xE8#8
  | .jmpRel32 => 0xE9#8
  | .jmpRel8 => 0xEB#8
  | .inAlDx => 0xEC#8
  | .outDxAl => 0xEE#8
  | .groupFF => 0xFF#8

/-- A byte has at most one handler and a handler one byte. -/
theorem dispatch_eq_some {op : Byte} {h : Handler} (e : dispatch op = some h) : op = h.opcode := by
  have all : ∀ op : Byte, (dispatch op).all (fun h => h.opcode == op) = true := by decide
  have := all op
  rw [e] at this
  simp only [Option.all_some, beq_iff_eq] at this
  exact this.symm

/-- Ten bytes are enough for every instruction, so the decoder does not run out of them (R80). -/
theorem decode_ne_truncated {w : List Byte} (hw : maxLength ≤ w.length) : decode w ≠ .error .truncated := by
  simp only [maxLength] at hw
  refine withByte_ne_truncated (by omega) fun op bs e => ?_
  subst e
  simp only [List.length_cons] at hw
  cases hd : dispatch op with
  | none => simp
  | some h =>
    change decodeOperands h bs ≠ _
    cases h with
    | group83 | groupFF | groupC7 =>
      simp only [decodeOperands]
      refine withModRM_ne_truncated (by omega) fun reg rm rest hl => ?_
      simp only [decodeGroup83, decodeGroupFF, decodeGroupC7]
      repeat' split
      all_goals
        first
        | (refine withByte_ne_truncated ?_ fun _ _ _ => ?_
           · omega
           · simp)
        | (refine withWord_ne_truncated ?_ fun _ _ => ?_
           · omega
           · simp)
        | simp
    | addRm32R32 | cmpR32Rm32 | movRm8R8 | movRm32R32 | movR8Rm8 | movR32Rm32 =>
      simp only [decodeOperands]
      refine withModRM_ne_truncated ?_ fun _ _ _ _ => ?_
      · omega
      · simp
    | cmpAlImm8 | pushImm8 | jo | jno | jc | jnc | jz | jnz | js | jns | jl | jle | movR8Imm8 r | jmpRel8 =>
      simp only [decodeOperands]
      refine withByte_ne_truncated ?_ fun _ _ _ => ?_
      · omega
      · simp
    | cmpEaxImm32 | pushImm32 | movR32Imm32 r | callRel32 | jmpRel32 =>
      simp only [decodeOperands]
      refine withWord_ne_truncated ?_ fun _ _ => ?_
      · omega
      · simp
    | incR32 r | pushR32 r | popR32 r | ret | leave | inAlDx | outDxAl => simp [decodeOperands]

end Sys2Proof
end

