-- ==== Sys2Proof/Laws/Flags.lean ====
section
/-! SUPPORT. The laws of the flags engine (40_common_operations R124): one bit written, the others kept, and what each
of the four bits says of the operands. -/

namespace Sys2Proof.Machine

/-! ### One bit -/

theorem getLsbD_setFlag_self (f : Word) (i : Nat) (hi : i < 32) (b : Bool) : (setFlag f i b).getLsbD i = b := by
  cases b <;> simp [setFlag, hi]

theorem getLsbD_setFlag_ne (f : Word) {i j : Nat} (h : j ≠ i) (b : Bool) :
    (setFlag f i b).getLsbD j = f.getLsbD j := by
  by_cases hj : j < 32
  · by_cases hlt : j < i
    · cases b <;> simp [setFlag, hj, hlt]
    · have : ¬ (j - i = 0) := by omega
      cases b <;> simp [setFlag, hj, hlt, this]
  · rw [BitVec.getLsbD_of_ge _ _ (by omega), BitVec.getLsbD_of_ge _ _ (by omega)]

/-! ### The difference -/

/-- The result of `SubFlags` is the difference modulo 2^32 (R124). -/
theorem subResult_eq (a b : Word) : subResult a b = a - b := by
  apply BitVec.eq_of_toNat_eq
  have ha := a.isLt
  have hb := b.isLt
  simp only [subResult, subWide, BitVec.extractLsb'_toNat, BitVec.toNat_sub, BitVec.toNat_setWidth, Nat.shiftRight_zero]
  omega

/-- CARRY is the unsigned order (R124). -/
theorem subCarry_eq (a b : Word) : subCarry a b = decide (a.toNat < b.toNat) := by
  have ha := a.isLt
  have hb := b.isLt
  have h : ((subWide a b).extractLsb' 32 32).toNat = if a.toNat < b.toNat then 2 ^ 32 - 1 else 0 := by
    simp only [subWide, BitVec.extractLsb'_toNat, BitVec.toNat_sub, BitVec.toNat_setWidth, Nat.shiftRight_eq_div_pow]
    split <;> omega
  by_cases hlt : a.toNat < b.toNat
  · have : (subWide a b).extractLsb' 32 32 ≠ 0#32 := by
      intro h0
      rw [h0] at h
      simp [hlt] at h
    simp [subCarry, hlt, this]
  · have : (subWide a b).extractLsb' 32 32 = 0#32 := by
      apply BitVec.eq_of_toNat_eq
      rw [h]
      simp [hlt]
    simp [subCarry, hlt, this]

/-- ZERO is equality (R124). -/
theorem subZero_eq (a b : Word) : subZero a b = decide (a = b) := by
  rw [subZero, subResult_eq]
  by_cases h : a = b
  · simp [h]
  · have : a - b ≠ 0#32 := by
      intro h0
      exact h (by bv_omega)
    simp [h, this]

/-- SIGN is bit 31 of the difference (R124). -/
theorem subSign_eq (a b : Word) : subSign a b = (a - b).getLsbD 31 := by rw [subSign, subResult_eq]

/-- Bit 31 as the sign of a number. -/
theorem getLsbD_31 (a : Word) : a.getLsbD 31 = decide (2 ^ 31 ≤ a.toNat) := by
  have h := BitVec.msb_eq_decide a
  simpa [BitVec.msb_eq_getLsbD_last] using h

/-- OVERFLOW is the signed difference out of range (R124). -/
theorem subOverflow_eq (a b : Word) :
    subOverflow a b = decide (a.toInt - b.toInt < -2 ^ 31 ∨ 2 ^ 31 ≤ a.toInt - b.toInt) := by
  have ha := a.isLt
  have hb := b.isLt
  rw [Bool.eq_iff_iff]
  simp only [subOverflow, subSign_eq, getLsbD_31, BitVec.toNat_sub, BitVec.toInt, Bool.and_eq_true, bne_iff_ne, ne_eq,
    decide_eq_decide, decide_eq_true_eq]
  split <;> split <;> omega

/-- SIGN differs from OVERFLOW exactly when the first operand is the smaller one, signed (R126). -/
theorem subSign_ne_subOverflow (a b : Word) : (subSign a b != subOverflow a b) = decide (a.toInt < b.toInt) := by
  have ha := a.isLt
  have hb := b.isLt
  rw [subOverflow_eq, subSign_eq, getLsbD_31, Bool.eq_iff_iff]
  simp only [BitVec.toNat_sub, BitVec.toInt, bne_iff_ne, ne_eq, decide_eq_decide, decide_eq_true_eq]
  split <;> split <;> omega

/-! ### The four bits of `subFlags` -/

theorem isCarry_subFlags (f a b : Word) : isCarry (subFlags f a b) = subCarry a b := by
  rw [isCarry, subFlags, getLsbD_setFlag_ne _ (by decide), getLsbD_setFlag_ne _ (by decide),
    getLsbD_setFlag_ne _ (by decide), getLsbD_setFlag_self _ _ (by decide)]

theorem isZero_subFlags (f a b : Word) : isZero (subFlags f a b) = subZero a b := by
  rw [isZero, subFlags, getLsbD_setFlag_ne _ (by decide), getLsbD_setFlag_ne _ (by decide),
    getLsbD_setFlag_self _ _ (by decide)]

theorem isSign_subFlags (f a b : Word) : isSign (subFlags f a b) = subSign a b := by
  rw [isSign, subFlags, getLsbD_setFlag_ne _ (by decide), getLsbD_setFlag_self _ _ (by decide)]

theorem isOverflow_subFlags (f a b : Word) : isOverflow (subFlags f a b) = subOverflow a b := by
  rw [isOverflow, subFlags, getLsbD_setFlag_self _ _ (by decide)]

/-- The other 28 bits are kept (R124). -/
theorem getLsbD_subFlags (f a b : Word) {i : Nat} (h0 : i ≠ 0) (h6 : i ≠ 6) (h7 : i ≠ 7) (h11 : i ≠ 11) :
    (subFlags f a b).getLsbD i = f.getLsbD i := by
  rw [subFlags, getLsbD_setFlag_ne (i := overflowBit) _ h11, getLsbD_setFlag_ne (i := signBit) _ h7,
    getLsbD_setFlag_ne (i := zeroBit) _ h6, getLsbD_setFlag_ne (i := carryBit) _ h0]

end Sys2Proof.Machine
end

