-- ==== Sys2Proof/Laws/Memory.lean ====
section
/-! SUPPORT. The laws of memory: a byte read after a byte write, every other byte left alone, and the canonical form
kept by every operation that writes (20_memory R54, R57). -/

namespace Sys2Proof.Machine

/-! ### Cells -/

/-- A canonical list from `lo` on holds 0 below `lo`. -/
theorem cellsGet_below {lo size : Nat} {cs : List Host.Cell} (h : cellsWf lo size cs = true) {a : Nat} (ha : a < lo) :
    cellsGet cs a = 0#8 := by
  induction cs generalizing lo with
  | nil => rfl
  | cons c rest ih =>
    obtain ⟨k, v⟩ := c
    simp only [cellsWf, Bool.and_eq_true, decide_eq_true_eq] at h
    have hk : k ≠ a := by omega
    simp only [cellsGet, hk, if_false]
    exact ih h.2 (by omega)

/-- A byte outside memory is listed nowhere. -/
theorem cellsGet_above {lo size : Nat} {cs : List Host.Cell} (h : cellsWf lo size cs = true) {a : Nat}
    (ha : size ≤ a) : cellsGet cs a = 0#8 := by
  induction cs generalizing lo with
  | nil => rfl
  | cons c rest ih =>
    obtain ⟨k, v⟩ := c
    simp only [cellsWf, Bool.and_eq_true, decide_eq_true_eq] at h
    have hk : k ≠ a := by omega
    simp only [cellsGet, hk, if_false]
    exact ih h.2

/-- The frame of a byte write: it holds of any list of cells. -/
theorem cellsGet_set_ne (cs : List Host.Cell) {a b : Nat} (v : Byte) (h : b ≠ a) :
    cellsGet (cellsSet cs a v) b = cellsGet cs b := by
  induction cs with
  | nil =>
    unfold cellsSet
    split
    · rfl
    · simp [cellsGet, h.symm]
  | cons c rest ih =>
    obtain ⟨k, w⟩ := c
    unfold cellsSet
    split
    · split
      · rfl
      · simp [cellsGet, h.symm]
    · split
      · rename_i _ hk
        subst hk
        split <;> simp [cellsGet, h.symm]
      · simp only [cellsGet, ih]

/-- A byte reads back as written. -/
theorem cellsGet_set_self {lo size : Nat} {cs : List Host.Cell} (hw : cellsWf lo size cs = true) (a : Nat) (v : Byte) :
    cellsGet (cellsSet cs a v) a = v := by
  induction cs generalizing lo with
  | nil =>
    unfold cellsSet
    split
    · rename_i h
      simp [cellsGet, h]
    · simp [cellsGet]
  | cons c rest ih =>
    obtain ⟨k, w⟩ := c
    simp only [cellsWf, Bool.and_eq_true, decide_eq_true_eq] at hw
    unfold cellsSet
    split
    · rename_i hlt
      split
      · rename_i hv
        have hk : k ≠ a := by omega
        simp only [cellsGet, hk, if_false, hv]
        exact cellsGet_below hw.2 (by omega)
      · simp [cellsGet]
    · split
      · rename_i _ hk
        split
        · rename_i hv
          rw [hv]
          exact cellsGet_below hw.2 (by omega)
        · simp [cellsGet]
      · rename_i _ hk
        have hk' : k ≠ a := fun e => hk e.symm
        simp only [cellsGet, hk', if_false]
        exact ih hw.2

/-- A byte write inside memory keeps the canonical form. -/
theorem cellsWf_set {lo size : Nat} {cs : List Host.Cell} (hw : cellsWf lo size cs = true) {a : Nat} (hlo : lo ≤ a)
    (hsize : a < size) (v : Byte) : cellsWf lo size (cellsSet cs a v) = true := by
  induction cs generalizing lo with
  | nil =>
    unfold cellsSet
    split
    · rfl
    · rename_i hv
      simp [cellsWf, hlo, hsize, hv]
  | cons c rest ih =>
    obtain ⟨k, w⟩ := c
    have hw' := hw
    simp only [cellsWf, Bool.and_eq_true, decide_eq_true_eq, bne_iff_ne] at hw
    obtain ⟨⟨⟨hk, hks⟩, hwne⟩, hrest⟩ := hw
    unfold cellsSet
    split
    · rename_i hlt
      split
      · exact hw'
      · rename_i hv
        have h1 : a + 1 ≤ k := hlt
        simp [cellsWf, hlo, hsize, hv, h1, hks, hwne, hrest]
    · rename_i hnlt
      split
      · rename_i hak
        subst hak
        split
        · cases rest with
          | nil => rfl
          | cons c' rest' =>
            obtain ⟨k', w'⟩ := c'
            simp only [cellsWf, Bool.and_eq_true, decide_eq_true_eq, bne_iff_ne] at hrest ⊢
            exact ⟨⟨⟨by omega, hrest.1.1.2⟩, hrest.1.2⟩, hrest.2⟩
        · rename_i hv
          simp [cellsWf, hlo, hsize, hv, hrest]
      · rename_i hne
        simp only [cellsWf, Bool.and_eq_true, decide_eq_true_eq, bne_iff_ne]
        exact ⟨⟨⟨hk, hks⟩, hwne⟩, ih hrest (by omega)⟩

/-! ### Bytes -/

@[simp] theorem Memory.setByte_size (m : Memory) (a : Nat) (v : Byte) : (m.setByte a v).size = m.size := rfl

theorem Memory.byteAt_setByte_ne (m : Memory) {a b : Nat} (v : Byte) (h : b ≠ a) :
    (m.setByte a v).byteAt b = m.byteAt b :=
  cellsGet_set_ne m.cells v h

theorem Memory.byteAt_setByte_self {m : Memory} (hw : m.wf = true) (a : Nat) (v : Byte) :
    (m.setByte a v).byteAt a = v :=
  cellsGet_set_self hw a v

theorem Memory.setByte_wf {m : Memory} (hw : m.wf = true) {a : Nat} (ha : a < m.size) (v : Byte) :
    (m.setByte a v).wf = true :=
  cellsWf_set hw (Nat.zero_le a) ha v

/-- A byte outside memory is shown as 0. -/
theorem Memory.byteAt_outside {m : Memory} (hw : m.wf = true) {a : Nat} (ha : m.size ≤ a) : m.byteAt a = 0#8 :=
  cellsGet_above hw ha

/-! ### Words -/

@[simp] theorem Memory.setWord_size (m : Memory) (a : Nat) (v : Word) : (m.setWord a v).size = m.size := rfl

/-- A word write changes its four bytes only (R54). -/
theorem Memory.byteAt_setWord_ne (m : Memory) {a b : Nat} (v : Word) (h : b < a ∨ a + 4 ≤ b) :
    (m.setWord a v).byteAt b = m.byteAt b := by
  unfold Memory.setWord
  rw [byteAt_setByte_ne _ _ (by omega), byteAt_setByte_ne _ _ (by omega), byteAt_setByte_ne _ _ (by omega),
    byteAt_setByte_ne _ _ (by omega)]

theorem Memory.setWord_wf {m : Memory} (hw : m.wf = true) {a : Nat} (ha : a + 4 ≤ m.size) (v : Word) :
    (m.setWord a v).wf = true := by
  unfold Memory.setWord
  refine setByte_wf (setByte_wf (setByte_wf (setByte_wf hw ?_ _) ?_ _) ?_ _) ?_ _ <;>
    first | omega | (simp only [setByte_size]; omega)

/-- The four bytes of a word write, read back (R54, R57). -/
theorem Memory.byteAt_setWord {m : Memory} (hw : m.wf = true) {a : Nat} (ha : a + 4 ≤ m.size) (v : Word) :
    (m.setWord a v).byteAt a = byteOfWord v 0 ∧ (m.setWord a v).byteAt (a + 1) = byteOfWord v 1 ∧
      (m.setWord a v).byteAt (a + 2) = byteOfWord v 2 ∧ (m.setWord a v).byteAt (a + 3) = byteOfWord v 3 := by
  have h0 : (m.setByte a (byteOfWord v 0)).wf = true := setByte_wf hw (by omega) _
  have h1 : ((m.setByte a (byteOfWord v 0)).setByte (a + 1) (byteOfWord v 1)).wf = true :=
    setByte_wf h0 (by simp; omega) _
  have h2 : (((m.setByte a (byteOfWord v 0)).setByte (a + 1) (byteOfWord v 1)).setByte (a + 2) (byteOfWord v 2)).wf
      = true := setByte_wf h1 (by simp; omega) _
  unfold Memory.setWord
  refine ⟨?_, ?_, ?_, ?_⟩
  · rw [byteAt_setByte_ne _ _ (by omega), byteAt_setByte_ne _ _ (by omega), byteAt_setByte_ne _ _ (by omega),
      byteAt_setByte_self hw]
  · rw [byteAt_setByte_ne _ _ (by omega), byteAt_setByte_ne _ _ (by omega), byteAt_setByte_self h0]
  · rw [byteAt_setByte_ne _ _ (by omega), byteAt_setByte_self h1]
  · rw [byteAt_setByte_self h2]

/-! ### Placing bytes -/

@[simp] theorem Memory.placeBytes_size (m : Memory) (a : Word) (bs : List Byte) :
    (m.placeBytes a bs).size = m.size := by
  induction bs generalizing m a with
  | nil => rfl
  | cons b bs ih =>
    unfold Memory.placeBytes
    rw [ih]
    split <;> rfl

theorem Memory.placeBytes_wf {m : Memory} (hw : m.wf = true) (a : Word) (bs : List Byte) :
    (m.placeBytes a bs).wf = true := by
  induction bs generalizing m a with
  | nil => exact hw
  | cons b bs ih =>
    unfold Memory.placeBytes
    split
    · rename_i h
      exact ih (setByte_wf hw h b) _
    · exact ih hw _

end Sys2Proof.Machine
end

