-- ==== Sys2Proof/Laws/State.lean ====
section
/-! SUPPORT. One lemma per field per update of the state, each true by rfl, so that no later proof unfolds a record
update; and the laws of the register file. -/

namespace Sys2Proof.Machine

variable (s : State)

/-! ### `setReg` -/

@[simp] theorem State.setReg_regs (r : Reg32) (v : Word) : (s.setReg r v).regs = s.regs.set r v := rfl
@[simp] theorem State.setReg_flags (r : Reg32) (v : Word) : (s.setReg r v).flags = s.flags := rfl
@[simp] theorem State.setReg_pc (r : Reg32) (v : Word) : (s.setReg r v).pc = s.pc := rfl
@[simp] theorem State.setReg_mem (r : Reg32) (v : Word) : (s.setReg r v).mem = s.mem := rfl
@[simp] theorem State.setReg_status (r : Reg32) (v : Word) : (s.setReg r v).status = s.status := rfl
@[simp] theorem State.setReg_portEvents (r : Reg32) (v : Word) : (s.setReg r v).portEvents = s.portEvents := rfl
@[simp] theorem State.setReg_portAnswers (r : Reg32) (v : Word) : (s.setReg r v).portAnswers = s.portAnswers := rfl
@[simp] theorem State.setReg_portReads (r : Reg32) (v : Word) : (s.setReg r v).portReads = s.portReads := rfl

/-! ### `setReg8` -/

@[simp] theorem State.setReg8_regs (j : Reg8) (v : Byte) : (s.setReg8 j v).regs = s.regs.set8 j v := rfl
@[simp] theorem State.setReg8_flags (j : Reg8) (v : Byte) : (s.setReg8 j v).flags = s.flags := rfl
@[simp] theorem State.setReg8_pc (j : Reg8) (v : Byte) : (s.setReg8 j v).pc = s.pc := rfl
@[simp] theorem State.setReg8_mem (j : Reg8) (v : Byte) : (s.setReg8 j v).mem = s.mem := rfl
@[simp] theorem State.setReg8_status (j : Reg8) (v : Byte) : (s.setReg8 j v).status = s.status := rfl
@[simp] theorem State.setReg8_portEvents (j : Reg8) (v : Byte) : (s.setReg8 j v).portEvents = s.portEvents := rfl
@[simp] theorem State.setReg8_portAnswers (j : Reg8) (v : Byte) : (s.setReg8 j v).portAnswers = s.portAnswers := rfl
@[simp] theorem State.setReg8_portReads (j : Reg8) (v : Byte) : (s.setReg8 j v).portReads = s.portReads := rfl

/-! ### `advance` -/

@[simp] theorem State.advance_regs (n : Nat) : (s.advance n).regs = s.regs := rfl
@[simp] theorem State.advance_flags (n : Nat) : (s.advance n).flags = s.flags := rfl
@[simp] theorem State.advance_pc (n : Nat) : (s.advance n).pc = s.pc + BitVec.ofNat 32 n := rfl
@[simp] theorem State.advance_mem (n : Nat) : (s.advance n).mem = s.mem := rfl
@[simp] theorem State.advance_status (n : Nat) : (s.advance n).status = s.status := rfl
@[simp] theorem State.advance_portEvents (n : Nat) : (s.advance n).portEvents = s.portEvents := rfl
@[simp] theorem State.advance_portAnswers (n : Nat) : (s.advance n).portAnswers = s.portAnswers := rfl
@[simp] theorem State.advance_portReads (n : Nat) : (s.advance n).portReads = s.portReads := rfl

/-! ### `withSubFlags` -/

@[simp] theorem State.withSubFlags_regs (a b : Word) : (s.withSubFlags a b).regs = s.regs := rfl
@[simp] theorem State.withSubFlags_flags (a b : Word) : (s.withSubFlags a b).flags = subFlags s.flags a b := rfl
@[simp] theorem State.withSubFlags_pc (a b : Word) : (s.withSubFlags a b).pc = s.pc := rfl
@[simp] theorem State.withSubFlags_mem (a b : Word) : (s.withSubFlags a b).mem = s.mem := rfl
@[simp] theorem State.withSubFlags_status (a b : Word) : (s.withSubFlags a b).status = s.status := rfl
@[simp] theorem State.withSubFlags_portEvents (a b : Word) : (s.withSubFlags a b).portEvents = s.portEvents := rfl
@[simp] theorem State.withSubFlags_portAnswers (a b : Word) : (s.withSubFlags a b).portAnswers = s.portAnswers := rfl
@[simp] theorem State.withSubFlags_portReads (a b : Word) : (s.withSubFlags a b).portReads = s.portReads := rfl

/-! ### `raise` -/

@[simp] theorem State.raise_regs (c : Condition) : (s.raise c).regs = s.regs := rfl
@[simp] theorem State.raise_flags (c : Condition) : (s.raise c).flags = s.flags := rfl
@[simp] theorem State.raise_pc (c : Condition) : (s.raise c).pc = s.pc := rfl
@[simp] theorem State.raise_mem (c : Condition) : (s.raise c).mem = s.mem := rfl
@[simp] theorem State.raise_status (c : Condition) : (s.raise c).status = .fatal c := rfl
@[simp] theorem State.raise_portEvents (c : Condition) : (s.raise c).portEvents = s.portEvents := rfl
@[simp] theorem State.raise_portAnswers (c : Condition) : (s.raise c).portAnswers = s.portAnswers := rfl
@[simp] theorem State.raise_portReads (c : Condition) : (s.raise c).portReads = s.portReads := rfl

/-! ### `stopOutOfRange` -/

@[simp] theorem State.stopOutOfRange_regs : (s.stopOutOfRange).regs = s.regs := rfl
@[simp] theorem State.stopOutOfRange_flags : (s.stopOutOfRange).flags = s.flags := rfl
@[simp] theorem State.stopOutOfRange_pc : (s.stopOutOfRange).pc = s.pc := rfl
@[simp] theorem State.stopOutOfRange_mem : (s.stopOutOfRange).mem = s.mem := rfl
@[simp] theorem State.stopOutOfRange_status : (s.stopOutOfRange).status = .stopPcRange s.pc := rfl
@[simp] theorem State.stopOutOfRange_portEvents : (s.stopOutOfRange).portEvents = s.portEvents := rfl
@[simp] theorem State.stopOutOfRange_portAnswers : (s.stopOutOfRange).portAnswers = s.portAnswers := rfl
@[simp] theorem State.stopOutOfRange_portReads : (s.stopOutOfRange).portReads = s.portReads := rfl

/-! ### `portOut8` -/

@[simp] theorem State.portOut8_regs (a : PortAddr) (v : Byte) : (s.portOut8 a v).regs = s.regs := rfl
@[simp] theorem State.portOut8_flags (a : PortAddr) (v : Byte) : (s.portOut8 a v).flags = s.flags := rfl
@[simp] theorem State.portOut8_pc (a : PortAddr) (v : Byte) : (s.portOut8 a v).pc = s.pc := rfl
@[simp] theorem State.portOut8_mem (a : PortAddr) (v : Byte) : (s.portOut8 a v).mem = s.mem := rfl
@[simp] theorem State.portOut8_status (a : PortAddr) (v : Byte) : (s.portOut8 a v).status = s.status := rfl
@[simp] theorem State.portOut8_portEvents (a : PortAddr) (v : Byte) : (s.portOut8 a v).portEvents = s.portEvents ++ [.out8 a v] := rfl
@[simp] theorem State.portOut8_portAnswers (a : PortAddr) (v : Byte) : (s.portOut8 a v).portAnswers = s.portAnswers := rfl
@[simp] theorem State.portOut8_portReads (a : PortAddr) (v : Byte) : (s.portOut8 a v).portReads = s.portReads := rfl

/-! ### `portIn8` -/

@[simp] theorem State.portIn8_regs (a : PortAddr) : (s.portIn8 a).2.regs = s.regs := rfl
@[simp] theorem State.portIn8_flags (a : PortAddr) : (s.portIn8 a).2.flags = s.flags := rfl
@[simp] theorem State.portIn8_pc (a : PortAddr) : (s.portIn8 a).2.pc = s.pc := rfl
@[simp] theorem State.portIn8_mem (a : PortAddr) : (s.portIn8 a).2.mem = s.mem := rfl
@[simp] theorem State.portIn8_status (a : PortAddr) : (s.portIn8 a).2.status = s.status := rfl
@[simp] theorem State.portIn8_portEvents (a : PortAddr) : (s.portIn8 a).2.portEvents = s.portEvents ++ [.in8 a (s.portAnswer a)] := rfl
@[simp] theorem State.portIn8_portAnswers (a : PortAddr) : (s.portIn8 a).2.portAnswers = s.portAnswers.tail := rfl
@[simp] theorem State.portIn8_portReads (a : PortAddr) : (s.portIn8 a).2.portReads = s.portReads + 1 := rfl

@[simp] theorem State.portIn8_fst (a : PortAddr) : (s.portIn8 a).1 = s.portAnswer a := rfl

/-! ### Registers -/

theorem State.reg_eq (r : Reg32) : s.reg r = s.regs.get r := rfl

theorem State.reg8_eq (j : Reg8) : s.reg8 j = s.regs.get8 j := rfl

@[simp] theorem Registers.get_set (x : Registers) (r q : Reg32) (v : Word) :
    (x.set r v).get q = if q = r then v else x.get q := by
  cases r <;> cases q <;> rfl

theorem Registers.get_set8_parent (x : Registers) (j : Reg8) (v : Byte) (q : Reg32) (h : q ≠ j.parent) :
    (x.set8 j v).get q = x.get q := by
  unfold Registers.set8
  split <;> simp [h]

theorem Registers.ext_get {x y : Registers} (h : ∀ r, x.get r = y.get r) : x = y := by
  cases x
  cases y
  have h0 := h .eax
  have h1 := h .ecx
  have h2 := h .edx
  have h3 := h .ebx
  have h4 := h .esp
  have h5 := h .ebp
  have h6 := h .esi
  have h7 := h .edi
  simp only [Registers.get] at h0 h1 h2 h3 h4 h5 h6 h7
  subst h0 h1 h2 h3 h4 h5 h6 h7
  rfl

/-! ### `commit`, `finishCycle`, `haltAtZero` -/

@[simp] theorem commit_ok (t : State) : commit s (.ok t) = .next t := rfl

@[simp] theorem commit_error (c : Condition) : commit s (.error c) = .next (s.raise c) := rfl

/-- What a handler can do: complete, or raise a condition that changes nothing but `status` (60_exceptions R272). -/
theorem commit_cases (r : Except Condition State) :
    (∃ t, r = .ok t ∧ commit s r = .next t) ∨ ∃ c, r = .error c ∧ commit s r = .next (s.raise c) := by
  cases r with
  | ok t => exact .inl ⟨t, rfl, rfl⟩
  | error c => exact .inr ⟨c, rfl, rfl⟩

@[simp] theorem finishCycle_next (t : State) : finishCycle (.next t) = .next t.haltAtZero := rfl

@[simp] theorem State.haltAtZero_raise (c : Condition) : (s.raise c).haltAtZero = s.raise c := rfl

/-- What the end of a cycle can do: nothing, or stop a running core whose `pc` is 0 (R277). -/
theorem State.haltAtZero_cases :
    s.haltAtZero = s ∨ (s.status = .running ∧ s.pc = 0#32 ∧ s.haltAtZero = { s with status := .haltNormal }) := by
  unfold State.haltAtZero
  split
  · rename_i h
    split
    · rename_i h'
      exact .inr ⟨h, h', rfl⟩
    · exact .inl rfl
  all_goals exact .inl rfl

end Sys2Proof.Machine
end

