-- ==== Sys2Proof/Laws/Operands.lean ====
section
/-! SUPPORT. What each shared operation can do, said once: the bounds check, the memory accessors, the stack, the
operand accessors, each as "it succeeds with this, or raises this, exactly when". -/

namespace Sys2Proof.Machine

/-! ### Handlers as sequences -/

@[simp] theorem ok_bind {α β : Type} (a : α) (f : α → Except Condition β) : (Except.ok a >>= f) = f a := rfl

@[simp] theorem error_bind {α β : Type} (c : Condition) (f : α → Except Condition β) :
    ((Except.error c : Except Condition α) >>= f) = .error c := rfl

/-- A sequence succeeds exactly when both parts do. -/
theorem bind_eq_ok {α β : Type} {x : Except Condition α} {f : α → Except Condition β} {b : β} :
    (x >>= f) = .ok b ↔ ∃ a, x = .ok a ∧ f a = .ok b := by
  cases x with
  | ok a => simp
  | error c => simp

/-- A sequence raises what its first part raises, or else what its second part raises. -/
theorem bind_eq_error {α β : Type} {x : Except Condition α} {f : α → Except Condition β} {c : Condition} :
    (x >>= f) = .error c ↔ x = .error c ∨ ∃ a, x = .ok a ∧ f a = .error c := by
  cases x with
  | ok a => simp
  | error c => simp

/-! ### The bounds rule (20_memory R55) -/

section

variable {m : Memory} {a : Word} {n : Nat} {kind : AccessKind}

theorem Memory.fits_iff : m.fits a n = true ↔ a.toNat + n ≤ m.size := by simp [Memory.fits]

theorem Memory.fits_eq_false : m.fits a n = false ↔ m.size < a.toNat + n := by simp [Memory.fits]

theorem Memory.check_eq_ok : m.check a n kind = .ok () ↔ m.fits a n = true := by
  cases h : m.fits a n <;> simp [Memory.check, h]

theorem Memory.check_eq_error {c : Condition} :
    m.check a n kind = .error c ↔ m.fits a n = false ∧ c = .outOfBounds a n kind := by
  cases h : m.fits a n <;> simp [Memory.check, h, eq_comm]

theorem Memory.read8_eq_ok {v : Byte} : m.read8 a = .ok v ↔ m.fits a 1 = true ∧ v = m.byteAt a.toNat := by
  cases h : m.fits a 1 <;> simp [Memory.read8, Memory.check, h, eq_comm]

theorem Memory.read8_eq_error {c : Condition} :
    m.read8 a = .error c ↔ m.fits a 1 = false ∧ c = .outOfBounds a 1 .read := by
  cases h : m.fits a 1 <;> simp [Memory.read8, Memory.check, h, eq_comm]

theorem Memory.read32_eq_ok {v : Word} : m.read32 a = .ok v ↔ m.fits a 4 = true ∧ v = m.wordAt a.toNat := by
  cases h : m.fits a 4 <;> simp [Memory.read32, Memory.check, h, eq_comm]

theorem Memory.read32_eq_error {c : Condition} :
    m.read32 a = .error c ↔ m.fits a 4 = false ∧ c = .outOfBounds a 4 .read := by
  cases h : m.fits a 4 <;> simp [Memory.read32, Memory.check, h, eq_comm]

theorem Memory.write8_eq_ok {v : Byte} {m' : Memory} :
    m.write8 a v = .ok m' ↔ m.fits a 1 = true ∧ m' = m.setByte a.toNat v := by
  cases h : m.fits a 1 <;> simp [Memory.write8, Memory.check, h, eq_comm]

theorem Memory.write8_eq_error {v : Byte} {c : Condition} :
    m.write8 a v = .error c ↔ m.fits a 1 = false ∧ c = .outOfBounds a 1 .write := by
  cases h : m.fits a 1 <;> simp [Memory.write8, Memory.check, h, eq_comm]

theorem Memory.write32_eq_ok {v : Word} {m' : Memory} :
    m.write32 a v = .ok m' ↔ m.fits a 4 = true ∧ m' = m.setWord a.toNat v := by
  cases h : m.fits a 4 <;> simp [Memory.write32, Memory.check, h, eq_comm]

theorem Memory.write32_eq_error {v : Word} {c : Condition} :
    m.write32 a v = .error c ↔ m.fits a 4 = false ∧ c = .outOfBounds a 4 .write := by
  cases h : m.fits a 4 <;> simp [Memory.write32, Memory.check, h, eq_comm]

end

/-! ### Fetch -/

@[simp] theorem State.fetchAddr_eq (s : State) (off : Nat) : s.fetchAddr off = s.pc + BitVec.ofNat 32 off := rfl

@[simp] theorem State.checkFetch_eq (s : State) (off n : Nat) :
    s.checkFetch off n = s.mem.check (s.pc + BitVec.ofNat 32 off) n .fetch := rfl

/-! ### The stack -/

/-- What a push can do (R127). -/
theorem State.push32_eq_ok {s t : State} {v : Word} : s.push32 v = .ok t ↔
    s.mem.fits (s.reg .esp - 4#32) 4 ∧
      t = ({ s with mem := s.mem.setWord (s.reg .esp - 4#32).toNat v }).setReg .esp (s.reg .esp - 4#32) := by
  simp only [State.push32, bind_eq_ok, Memory.write32_eq_ok, Except.ok.injEq]
  constructor
  · rintro ⟨_, ⟨h, rfl⟩, rfl⟩
    exact ⟨h, rfl⟩
  · rintro ⟨h, rfl⟩
    exact ⟨_, ⟨h, rfl⟩, rfl⟩

theorem State.push32_eq_error {s : State} {v : Word} {c : Condition} : s.push32 v = .error c ↔
    s.mem.fits (s.reg .esp - 4#32) 4 = false ∧ c = .outOfBounds (s.reg .esp - 4#32) 4 .write := by
  simp [State.push32, bind_eq_error, Memory.write32_eq_error]

/-- What a pop can do (R128). -/
theorem State.pop32_eq_ok {s : State} {p : Word × State} : s.pop32 = .ok p ↔
    s.mem.fits (s.reg .esp) 4 ∧ p = (s.mem.wordAt (s.reg .esp).toNat, s.setReg .esp (s.reg .esp + 4#32)) := by
  simp only [State.pop32, bind_eq_ok, Memory.read32_eq_ok, Except.ok.injEq]
  constructor
  · rintro ⟨_, ⟨h, rfl⟩, rfl⟩
    exact ⟨h, rfl⟩
  · rintro ⟨h, rfl⟩
    exact ⟨_, ⟨h, rfl⟩, rfl⟩

theorem State.pop32_eq_error {s : State} {c : Condition} : s.pop32 = .error c ↔
    s.mem.fits (s.reg .esp) 4 = false ∧ c = .outOfBounds (s.reg .esp) 4 .read := by
  simp [State.pop32, bind_eq_error, Memory.read32_eq_error]

/-! ### Faults in order -/

@[simp] theorem firstFault_nil : firstFault [] = none := rfl

theorem firstFault_cons (b : Bool) (c : Condition) (rest : Faults) :
    firstFault ((b, c) :: rest) = if b then some c else firstFault rest := rfl

theorem firstFault_append (f g : Faults) : firstFault (f ++ g) = (firstFault f).or (firstFault g) := by
  induction f with
  | nil => rfl
  | cons p f ih =>
    obtain ⟨b, c⟩ := p
    simp only [List.cons_append, firstFault_cons, ih]
    cases b <;> rfl

/-- The value `x`, or the first of the faults `f`. Every handler is of this form. -/
def orFault {α : Type} (f : Faults) (x : α) : Except Condition α :=
  match firstFault f with
  | none => .ok x
  | some c => .error c

theorem orFault_of_none {α : Type} {f : Faults} {x : α} (h : firstFault f = none) : orFault f x = .ok x := by
  simp [orFault, h]

theorem orFault_of_some {α : Type} {f : Faults} {x : α} {c : Condition} (h : firstFault f = some c) :
    orFault f x = .error c := by
  simp [orFault, h]

theorem orFault_eq_ok {α : Type} {f : Faults} {x y : α} : orFault f x = .ok y ↔ firstFault f = none ∧ y = x := by
  unfold orFault
  cases firstFault f <;> simp [eq_comm]

theorem orFault_eq_error {α : Type} {f : Faults} {x : α} {c : Condition} :
    (orFault f x = .error c) ↔ firstFault f = some c := by
  unfold orFault
  cases firstFault f <;> simp

@[simp] theorem orFault_nil {α : Type} (x : α) : orFault [] x = .ok x := rfl

/-- Two parts in sequence raise the first of the faults of both in order; the second part may assume that the first
raised nothing. -/
theorem orFault_bind {α β : Type} {f g : Faults} {x : α} {y : β} {k : α → Except Condition β}
    (h : firstFault f = none → k x = orFault g y) : (orFault f x >>= k) = orFault (f ++ g) y := by
  cases hf : firstFault f with
  | none => simp [h hf, orFault, firstFault_append, hf]
  | some c => simp [orFault, firstFault_append, hf]

/-- A last part that raises nothing adds no fault. -/
theorem orFault_bind_ok {α β : Type} {f : Faults} {x : α} {y : β} {k : α → Except Condition β}
    (h : firstFault f = none → k x = .ok y) : (orFault f x >>= k) = orFault f y := by
  simpa using orFault_bind (f := f) (g := []) h

/-- The end of a handler of that form (60_exceptions R272, R273): its effect where no fault arises, the first fault
and no effect where one does. -/
theorem commit_orFault {s t : State} {f : Faults} {r : Except Condition State} (h : r = orFault f t) :
    (firstFault f = none → commit s r = .next t) ∧ ∀ c, firstFault f = some c → commit s r = .next (s.raise c) := by
  subst h
  exact ⟨fun hf => by rw [orFault_of_none hf]; rfl, fun c hf => by rw [orFault_of_some hf]; rfl⟩

/-! ### The shared operations in that form -/

/-- A check raises exactly the fault of its access. -/
theorem State.check_orFault (s : State) (a : Word) (n : Nat) (kind : AccessKind) :
    s.mem.check a n kind = orFault [s.outside a n kind] () := by
  cases h : s.mem.fits a n <;> simp [Memory.check, orFault, firstFault, State.outside, h]

theorem State.checkFetch_orFault (s : State) (off n : Nat) :
    s.checkFetch off n = orFault [s.outside (s.pc + BitVec.ofNat 32 off) n .fetch] () :=
  s.check_orFault _ _ _

/-- The fetches of the addressing bytes (30_encoding R90). -/
theorem fetchModRM_orFault {ρ : Type} (s : State) (rm : Rm ρ) : fetchModRM s rm = orFault (modRMFaults s rm) () := by
  have one : (do s.checkFetch 1 1; Except.ok ()) = orFault [s.outside (s.pc + 1#32) 1 .fetch] () := by
    rw [State.checkFetch_orFault]
    exact orFault_bind (g := []) fun _ => rfl
  have two : ∀ n, (do s.checkFetch 1 1; s.checkFetch 2 n) =
      orFault [s.outside (s.pc + 1#32) 1 .fetch, s.outside (s.pc + 2#32) n .fetch] () := by
    intro n
    rw [State.checkFetch_orFault]
    exact orFault_bind fun _ => s.checkFetch_orFault _ _
  cases rm with
  | reg r => exact one
  | mem m =>
    cases m with
    | ind b => exact one
    | abs d => exact two 4
    | disp8 b d => exact two 1
    | disp32 b d => exact two 4
    | sib mode b => exact two 1

/-- A 32-bit read of the rm operand (R134). -/
theorem getRm32_orFault (s : State) (reg : BitVec 3) (rm : Rm Reg32) :
    getRm32 s reg rm = orFault (sibFault reg rm ++ accessFault s rm 4 .read) (s.loadRm32 rm) := by
  cases rm with
  | reg r => rfl
  | mem m =>
    cases m <;>
      simp [getRm32, MemForm.ea, MemForm.address, sibFault, accessFault, firstFault, State.loadRm32,
        State.outside, Memory.read32, Memory.check, MemForm.modRM, orFault] <;>
      split <;> simp [*]

/-- A 32-bit write of the rm operand (R134). -/
theorem setRm32_orFault (s : State) (reg : BitVec 3) (rm : Rm Reg32) (v : Word) :
    setRm32 s reg rm v = orFault (sibFault reg rm ++ accessFault s rm 4 .write) (s.storeRm32 rm v) := by
  cases rm with
  | reg r => rfl
  | mem m =>
    cases m <;>
      simp [setRm32, MemForm.ea, MemForm.address, sibFault, accessFault, firstFault, State.storeRm32,
        State.outside, Memory.write32, Memory.check, MemForm.modRM, orFault] <;>
      split <;> simp [*]

/-- An 8-bit read of the rm operand (R135). -/
theorem getRm8_orFault (s : State) (reg : BitVec 3) (rm : Rm Reg8) :
    getRm8 s reg rm = orFault (sibFault reg rm ++ accessFault s rm 1 .read) (s.loadRm8 rm) := by
  cases rm with
  | reg r => rfl
  | mem m =>
    cases m <;>
      simp [getRm8, MemForm.ea, MemForm.address, sibFault, accessFault, firstFault, State.loadRm8,
        State.outside, Memory.read8, Memory.check, MemForm.modRM, orFault] <;>
      split <;> simp [*]

/-- An 8-bit write of the rm operand (R135). -/
theorem setRm8_orFault (s : State) (reg : BitVec 3) (rm : Rm Reg8) (v : Byte) :
    setRm8 s reg rm v = orFault (sibFault reg rm ++ accessFault s rm 1 .write) (s.storeRm8 rm v) := by
  cases rm with
  | reg r => rfl
  | mem m =>
    cases m <;>
      simp [setRm8, MemForm.ea, MemForm.address, sibFault, accessFault, firstFault, State.storeRm8,
        State.outside, Memory.write8, Memory.check, MemForm.modRM, orFault] <;>
      split <;> simp [*]

/-- The addressing test raises for the SIB form only (42_opcode_groups R187). -/
theorem checkAddressing_orFault {ρ : Type} (s : State) (reg : BitVec 3) (rm : Rm ρ) :
    checkAddressing s reg rm = orFault (sibFault reg rm) () := by
  cases rm with
  | reg r => rfl
  | mem m => cases m <;> rfl

/-- Where a read of the operand raises nothing, the write of it raises nothing: the address is the same both times
(R134). -/
theorem accessFault_write_of_read {ρ : Type} {s : State} {rm : Rm ρ} {n : Nat}
    (h : firstFault (accessFault s rm n .read) = none) : firstFault (accessFault s rm n .write) = none := by
  cases rm with
  | reg r => rfl
  | mem m =>
    simp only [accessFault] at h ⊢
    split at h <;> simp_all [firstFault, State.outside]

/-- Hence a write after a read of the same operand simply happens. -/
theorem setRm32_of_read_ok {s : State} {reg : BitVec 3} {rm : Rm Reg32} {v : Word}
    (h : firstFault (sibFault reg rm ++ accessFault s rm 4 .read) = none) :
    setRm32 s reg rm v = .ok (s.storeRm32 rm v) := by
  rw [firstFault_append, Option.or_eq_none_iff] at h
  rw [setRm32_orFault, orFault_of_none]
  rw [firstFault_append, h.1, accessFault_write_of_read h.2]
  rfl

/-- The flags are not part of an operand or of its address. -/
theorem firstFault_accessFault_withSubFlags {ρ : Type} (s : State) (a b : Word) (rm : Rm ρ) (n : Nat)
    (kind : AccessKind) : accessFault (s.withSubFlags a b) rm n kind = accessFault s rm n kind := by
  cases rm with
  | reg r => rfl
  | mem m => cases m <;> rfl

/-! ### Writes of an operand keep the rest of the state -/

section

variable (s : State) (rm : Rm Reg32) (v : Word) (rm8 : Rm Reg8) (b : Byte)

@[simp] theorem State.storeRm32_pc : (s.storeRm32 rm v).pc = s.pc := by
  cases rm with
  | reg r => rfl
  | mem m => cases m <;> rfl

@[simp] theorem State.storeRm32_flags : (s.storeRm32 rm v).flags = s.flags := by
  cases rm with
  | reg r => rfl
  | mem m => cases m <;> rfl

@[simp] theorem State.storeRm32_status : (s.storeRm32 rm v).status = s.status := by
  cases rm with
  | reg r => rfl
  | mem m => cases m <;> rfl

@[simp] theorem State.storeRm32_portEvents : (s.storeRm32 rm v).portEvents = s.portEvents := by
  cases rm with
  | reg r => rfl
  | mem m => cases m <;> rfl

@[simp] theorem State.storeRm32_portAnswers : (s.storeRm32 rm v).portAnswers = s.portAnswers := by
  cases rm with
  | reg r => rfl
  | mem m => cases m <;> rfl

@[simp] theorem State.storeRm32_portReads : (s.storeRm32 rm v).portReads = s.portReads := by
  cases rm with
  | reg r => rfl
  | mem m => cases m <;> rfl

/-- The end of a handler that writes an operand. -/
theorem State.storeRm32_advance (n : Nat) : (s.storeRm32 rm v).advance n =
    { s.storeRm32 rm v with pc := s.pc + BitVec.ofNat 32 n } := by
  simp [State.advance]

@[simp] theorem State.storeRm8_pc : (s.storeRm8 rm8 b).pc = s.pc := by
  cases rm8 with
  | reg r => rfl
  | mem m => cases m <;> rfl

theorem State.storeRm8_advance (n : Nat) : (s.storeRm8 rm8 b).advance n =
    { s.storeRm8 rm8 b with pc := s.pc + BitVec.ofNat 32 n } := by
  simp [State.advance]

@[simp] theorem State.storeRm8_flags : (s.storeRm8 rm8 b).flags = s.flags := by
  cases rm8 with
  | reg r => rfl
  | mem m => cases m <;> rfl

@[simp] theorem State.storeRm8_status : (s.storeRm8 rm8 b).status = s.status := by
  cases rm8 with
  | reg r => rfl
  | mem m => cases m <;> rfl

@[simp] theorem State.storeRm8_portEvents : (s.storeRm8 rm8 b).portEvents = s.portEvents := by
  cases rm8 with
  | reg r => rfl
  | mem m => cases m <;> rfl

@[simp] theorem State.storeRm8_portAnswers : (s.storeRm8 rm8 b).portAnswers = s.portAnswers := by
  cases rm8 with
  | reg r => rfl
  | mem m => cases m <;> rfl

@[simp] theorem State.storeRm8_portReads : (s.storeRm8 rm8 b).portReads = s.portReads := by
  cases rm8 with
  | reg r => rfl
  | mem m => cases m <;> rfl

end

end Sys2Proof.Machine
end

