-- ==== Sys2Proof/Laws/Exec.lean ====
section
/-! SUPPORT. What `exec` can do, said once for every instruction: the faults of its rule in order, and the one state it
ends in where none of them arises. Every law about `exec` is a law about these two. -/

namespace Sys2Proof

open Machine

/-- The faults of an instruction's rule, in the order they can arise. -/
def Instr.faults (i : Instr) (s : State) : Faults :=
  match i with
  | .pushR32 _ => [s.outside (s.reg .esp - 4#32) 4 .write]
  | .popR32 _ | .ret => [s.outside (s.reg .esp) 4 .read]
  | .incR32 _ | .inAlDx | .outDxAl => []
  | .movR32Imm32 _ _ | .cmpEaxImm32 _ | .jmpRel32 _ => [s.outside (s.pc + 1#32) 4 .fetch]
  | .movR8Imm8 _ _ | .cmpAlImm8 _ | .jmpRel8 _ => [s.outside (s.pc + 1#32) 1 .fetch]
  | .pushImm8 _ => [s.outside (s.pc + 1#32) 1 .fetch, s.outside (s.reg .esp - 4#32) 4 .write]
  | .pushImm32 _ | .callRel32 _ => [s.outside (s.pc + 1#32) 4 .fetch, s.outside (s.reg .esp - 4#32) 4 .write]
  | .addRm32Imm8 rm _ => modRMFaults s rm ++ sibFault 0#3 rm ++ accessFault s rm 4 .read ++
      [s.outside (s.pc + BitVec.ofNat 32 (1 + rm.size)) 1 .fetch]
  | .subRm32Imm8 rm _ => modRMFaults s rm ++ sibFault 5#3 rm ++ accessFault s rm 4 .read ++
      [s.outside (s.pc + BitVec.ofNat 32 (1 + rm.size)) 1 .fetch]
  | .cmpRm32Imm8 rm _ => modRMFaults s rm ++ sibFault 7#3 rm ++ accessFault s rm 4 .read ++
      [s.outside (s.pc + BitVec.ofNat 32 (1 + rm.size)) 1 .fetch]
  | .incRm32 rm => modRMFaults s rm ++ sibFault 0#3 rm ++ accessFault s rm 4 .read
  | .movRm32Imm32 rm _ => modRMFaults s rm ++ sibFault 0#3 rm ++
      [s.outside (s.pc + BitVec.ofNat 32 (1 + rm.size)) 4 .fetch] ++ accessFault s rm 4 .write
  | .addRm32R32 rm r | .cmpR32Rm32 r rm | .movR32Rm32 r rm =>
    modRMFaults s rm ++ sibFault r.toBits rm ++ accessFault s rm 4 .read
  | .movRm32R32 rm r => modRMFaults s rm ++ sibFault r.toBits rm ++ accessFault s rm 4 .write
  | .movRm8R8 rm r => modRMFaults s rm ++ sibFault r.toBits rm ++ accessFault s rm 1 .write
  | .movR8Rm8 r rm => modRMFaults s rm ++ sibFault r.toBits rm ++ accessFault s rm 1 .read
  | .leave => [s.outside (s.reg .ebp) 4 .read]
  | .jo _ => jumpFaults s (isOverflow s.flags)
  | .jno _ => jumpFaults s (!isOverflow s.flags)
  | .jc _ => jumpFaults s (isCarry s.flags)
  | .jnc _ => jumpFaults s (!isCarry s.flags)
  | .jz _ => jumpFaults s (isZero s.flags)
  | .jnz _ => jumpFaults s (!isZero s.flags)
  | .js _ => jumpFaults s (isSign s.flags)
  | .jns _ => jumpFaults s (!isSign s.flags)
  | .jl _ => jumpFaults s (isLess s.flags)
  | .jle _ => jumpFaults s (isLessOrEqual s.flags)
where
  /-- The offset byte is fetched only when the jump is taken (45_conditional_jumps R240). -/
  jumpFaults (s : State) (cond : Bool) : Faults := if cond then [s.outside (s.pc + 1#32) 1 .fetch] else []

/-- The state an instruction ends in where no fault arises. -/
def Instr.effect (i : Instr) (s : State) : State :=
  match i with
  | .pushR32 r => pushed s (s.reg r) 1
  | .popR32 r => { s with
      regs := (s.regs.set .esp (s.reg .esp + 4#32)).set r (s.mem.wordAt (s.reg .esp).toNat)
      pc := s.pc + 1#32 }
  | .incR32 r => { s with regs := s.regs.set r (s.reg r + 1#32), pc := s.pc + 1#32 }
  | .movR32Imm32 r imm => { s with regs := s.regs.set r imm, pc := s.pc + 5#32 }
  | .movR8Imm8 r imm => { s with regs := s.regs.set8 r imm, pc := s.pc + 2#32 }
  | .pushImm8 imm => pushed s (imm.signExtend 32) 2
  | .pushImm32 imm => pushed s imm 5
  | .addRm32Imm8 rm imm => (s.storeRm32 rm (s.loadRm32 rm + imm.signExtend 32)).advance (2 + rm.size)
  | .subRm32Imm8 rm imm => ((s.storeRm32 rm (s.loadRm32 rm - imm.signExtend 32)).withSubFlags (s.loadRm32 rm)
      (imm.signExtend 32)).advance (2 + rm.size)
  | .cmpRm32Imm8 rm imm => (s.withSubFlags (s.loadRm32 rm) (imm.signExtend 32)).advance (2 + rm.size)
  | .incRm32 rm => (s.storeRm32 rm (s.loadRm32 rm + 1#32)).advance (1 + rm.size)
  | .movRm32Imm32 rm imm => (s.storeRm32 rm imm).advance (5 + rm.size)
  | .addRm32R32 rm r => (s.storeRm32 rm (s.loadRm32 rm + s.reg r)).advance (1 + rm.size)
  | .cmpR32Rm32 r rm => (s.withSubFlags (s.reg r) (s.loadRm32 rm)).advance (1 + rm.size)
  | .movRm8R8 rm r => (s.storeRm8 rm (s.reg8 r)).advance (1 + rm.size)
  | .movRm32R32 rm r => (s.storeRm32 rm (s.reg r)).advance (1 + rm.size)
  | .movR8Rm8 r rm => (s.setReg8 r (s.loadRm8 rm)).advance (1 + rm.size)
  | .movR32Rm32 r rm => (s.setReg r (s.loadRm32 rm)).advance (1 + rm.size)
  | .cmpAlImm8 imm => (s.withSubFlags ((s.reg8 .al).zeroExtend 32) (imm.zeroExtend 32)).advance 2
  | .cmpEaxImm32 imm => (s.withSubFlags (s.reg .eax) imm).advance 5
  | .jmpRel8 rel => { s with pc := s.pc + 2#32 + rel.signExtend 32 }
  | .jmpRel32 rel => { s with pc := s.pc + 5#32 + rel }
  | .callRel32 rel => { pushed s (s.pc + 5#32) 5 with pc := s.pc + 5#32 + rel }
  | .ret => { s with regs := s.regs.set .esp (s.reg .esp + 4#32), pc := s.mem.wordAt (s.reg .esp).toNat }
  | .leave => { s with
      regs := { s.regs with esp := s.reg .ebp + 4#32, ebp := s.mem.wordAt (s.reg .ebp).toNat }
      pc := s.pc + 1#32 }
  | .jo rel => jumped s (isOverflow s.flags) rel
  | .jno rel => jumped s (!isOverflow s.flags) rel
  | .jc rel => jumped s (isCarry s.flags) rel
  | .jnc rel => jumped s (!isCarry s.flags) rel
  | .jz rel => jumped s (isZero s.flags) rel
  | .jnz rel => jumped s (!isZero s.flags) rel
  | .js rel => jumped s (isSign s.flags) rel
  | .jns rel => jumped s (!isSign s.flags) rel
  | .jl rel => jumped s (isLess s.flags) rel
  | .jle rel => jumped s (isLessOrEqual s.flags) rel
  | .inAlDx => ((s.portIn8 s.portAddr).2.setReg8 .al (s.portAnswer s.portAddr)).advance 1
  | .outDxAl => (s.portOut8 s.portAddr (s.reg8 .al)).advance 1
where
  /-- A push, with the instruction's length (40_common_operations R127). -/
  pushed (s : State) (v : Word) (n : Nat) : State := { s with
    mem := s.mem.setWord (s.reg .esp - 4#32).toNat v
    regs := s.regs.set .esp (s.reg .esp - 4#32)
    pc := s.pc + BitVec.ofNat 32 n }
  /-- A conditional jump (45_conditional_jumps R240). -/
  jumped (s : State) (cond : Bool) (rel : Byte) : State :=
    { s with pc := if cond then s.pc + 2#32 + rel.signExtend 32 else s.pc + 2#32 }

end Sys2Proof

namespace Sys2Proof.Machine

theorem State.push32_orFault (s : State) (v : Word) : s.push32 v =
    orFault [s.outside (s.reg .esp - 4#32) 4 .write]
      (({ s with mem := s.mem.setWord (s.reg .esp - 4#32).toNat v }).setReg .esp (s.reg .esp - 4#32)) := by
  cases h : s.mem.fits (s.reg .esp - 4#32) 4 <;>
    simp [State.push32, Memory.write32, Memory.check, orFault, firstFault, State.outside, h]

theorem State.pop32_orFault (s : State) : s.pop32 =
    orFault [s.outside (s.reg .esp) 4 .read]
      (s.mem.wordAt (s.reg .esp).toNat, s.setReg .esp (s.reg .esp + 4#32)) := by
  cases h : s.mem.fits (s.reg .esp) 4 <;>
    simp [State.pop32, Memory.read32, Memory.check, orFault, firstFault, State.outside, h]

theorem Memory.read32_orFault (s : State) (a : Word) :
    s.mem.read32 a = orFault [s.outside a 4 .read] (s.mem.wordAt a.toNat) := by
  cases h : s.mem.fits a 4 <;> simp [Memory.read32, Memory.check, orFault, firstFault, State.outside, h]

theorem jumpIf_orFault (cond : Bool) (rel : Byte) (s : State) :
    jumpIf cond rel s = orFault (Instr.faults.jumpFaults s cond) (Instr.effect.jumped s cond rel) := by
  cases cond with
  | false => rfl
  | true =>
    simp only [jumpIf, State.checkFetch_orFault]
    exact orFault_bind_ok fun _ => rfl

/-- The rm operand is read, then one more byte fetched, then the result built. -/
theorem modRM_read_imm {s t : State} {reg : BitVec 3} {rm : Rm Reg32} {k : Word → Except Condition State}
    (h : firstFault (sibFault reg rm ++ accessFault s rm 4 .read) = none → k (s.loadRm32 rm) = .ok t) :
    (do fetchModRM s rm
        let a ← getRm32 s reg rm
        s.checkFetch (1 + rm.size) 1
        k a) = orFault (modRMFaults s rm ++ sibFault reg rm ++ accessFault s rm 4 .read ++
          [s.outside (s.pc + BitVec.ofNat 32 (1 + rm.size)) 1 .fetch]) t := by
  rw [fetchModRM_orFault, List.append_assoc, List.append_assoc]
  refine orFault_bind fun _ => ?_
  rw [getRm32_orFault, ← List.append_assoc]
  refine orFault_bind fun hr => ?_
  rw [State.checkFetch_orFault]
  exact orFault_bind_ok fun _ => h hr

/-- The rm operand is read, then the result built. -/
theorem modRM_read {s t : State} {reg : BitVec 3} {rm : Rm Reg32} {k : Word → Except Condition State}
    (h : firstFault (sibFault reg rm ++ accessFault s rm 4 .read) = none → k (s.loadRm32 rm) = .ok t) :
    (do fetchModRM s rm
        let a ← getRm32 s reg rm
        k a) = orFault (modRMFaults s rm ++ sibFault reg rm ++ accessFault s rm 4 .read) t := by
  rw [fetchModRM_orFault, List.append_assoc]
  refine orFault_bind fun _ => ?_
  rw [getRm32_orFault]
  exact orFault_bind_ok h

/-- Where only the SIB form has a fault, the rest of a list of faults decides. -/
theorem setRm32_of_sib_ok {s : State} {reg : BitVec 3} {rm : Rm Reg32} {v : Word}
    (h : firstFault (sibFault reg rm) = none) :
    setRm32 s reg rm v = orFault (accessFault s rm 4 .write) (s.storeRm32 rm v) := by
  rw [setRm32_orFault]
  simp only [orFault, firstFault_append, h, Option.none_or]

/-- The flags are not part of an operand or of its address. -/
theorem storeRm32_withSubFlags (s : State) (a b : Word) (rm : Rm Reg32) (v : Word) :
    (s.withSubFlags a b).storeRm32 rm v = (s.storeRm32 rm v).withSubFlags a b := by
  cases rm with
  | reg r => rfl
  | mem m => cases m <;> rfl

/-- A fetch of an immediate or offset, then a push. -/
theorem fetch_push {s t : State} {n : Nat} {v : Word} {k : State → Except Condition State}
    (h : k (({ s with mem := s.mem.setWord (s.reg .esp - 4#32).toNat v }).setReg .esp (s.reg .esp - 4#32)) = .ok t) :
    (do s.checkFetch 1 n
        let u ← s.push32 v
        k u) = orFault [s.outside (s.pc + 1#32) n .fetch, s.outside (s.reg .esp - 4#32) 4 .write] t := by
  rw [State.checkFetch_orFault]
  refine orFault_bind (f := [_]) (g := [_]) fun _ => ?_
  rw [State.push32_orFault]
  exact orFault_bind_ok fun _ => h

/-- What `exec` does: the effect of the instruction, or the first of its faults and no effect (60_exceptions R272,
R273). -/
theorem exec_eq (i : Instr) (s : State) : exec i s = commit s (orFault (i.faults s) (i.effect s)) := by
  have fetched : ∀ (n : Nat) (t : State), (do s.checkFetch 1 n; Except.ok t) =
      orFault [s.outside (s.pc + 1#32) n .fetch] t := by
    intro n t
    rw [State.checkFetch_orFault]
    exact orFault_bind_ok fun _ => rfl
  cases i with
  | pushR32 r =>
    refine congrArg (commit s) ?_
    rw [State.push32_orFault]
    exact orFault_bind_ok fun _ => rfl
  | popR32 r =>
    refine congrArg (commit s) ?_
    rw [State.pop32_orFault]
    exact orFault_bind_ok fun _ => rfl
  | incR32 r => rfl
  | movR32Imm32 r imm => exact congrArg (commit s) (fetched 4 _)
  | movR8Imm8 r imm => exact congrArg (commit s) (fetched 1 _)
  | pushImm8 imm => exact congrArg (commit s) (fetch_push rfl)
  | pushImm32 imm => exact congrArg (commit s) (fetch_push rfl)
  | addRm32Imm8 rm imm =>
    exact congrArg (commit s) (modRM_read_imm fun h => by rw [setRm32_of_read_ok h]; rfl)
  | subRm32Imm8 rm imm =>
    refine congrArg (commit s) (modRM_read_imm fun h => ?_)
    rw [← firstFault_accessFault_withSubFlags s (s.loadRm32 rm) (imm.signExtend 32)] at h
    rw [setRm32_of_read_ok h, storeRm32_withSubFlags, subResult_eq]
    rfl
  | cmpRm32Imm8 rm imm => exact congrArg (commit s) (modRM_read_imm fun _ => rfl)
  | incRm32 rm => exact congrArg (commit s) (modRM_read fun h => by rw [setRm32_of_read_ok h]; rfl)
  | movRm32Imm32 rm imm =>
    refine congrArg (commit s) ?_
    rw [fetchModRM_orFault, Instr.faults, List.append_assoc, List.append_assoc]
    refine orFault_bind fun _ => ?_
    rw [checkAddressing_orFault]
    refine orFault_bind fun h => ?_
    rw [State.checkFetch_orFault]
    refine orFault_bind fun _ => ?_
    rw [setRm32_of_sib_ok h]
    exact orFault_bind_ok fun _ => rfl
  | addRm32R32 rm r => exact congrArg (commit s) (modRM_read fun h => by rw [setRm32_of_read_ok h]; rfl)
  | cmpR32Rm32 r rm => exact congrArg (commit s) (modRM_read fun _ => rfl)
  | movRm8R8 rm r =>
    refine congrArg (commit s) ?_
    rw [fetchModRM_orFault, Instr.faults, List.append_assoc, setRm8_orFault]
    exact orFault_bind fun _ => orFault_bind_ok fun _ => rfl
  | movRm32R32 rm r =>
    refine congrArg (commit s) ?_
    rw [fetchModRM_orFault, Instr.faults, List.append_assoc, setRm32_orFault]
    exact orFault_bind fun _ => orFault_bind_ok fun _ => rfl
  | movR8Rm8 r rm =>
    refine congrArg (commit s) ?_
    rw [fetchModRM_orFault, Instr.faults, List.append_assoc, getRm8_orFault]
    exact orFault_bind fun _ => orFault_bind_ok fun _ => rfl
  | movR32Rm32 r rm => exact congrArg (commit s) (modRM_read fun _ => rfl)
  | cmpAlImm8 imm => exact congrArg (commit s) (fetched 1 _)
  | cmpEaxImm32 imm => exact congrArg (commit s) (fetched 4 _)
  | jmpRel8 rel => exact congrArg (commit s) (fetched 1 _)
  | jmpRel32 rel => exact congrArg (commit s) (fetched 4 _)
  | callRel32 rel => exact congrArg (commit s) (fetch_push rfl)
  | ret =>
    refine congrArg (commit s) ?_
    rw [State.pop32_orFault]
    exact orFault_bind_ok fun _ => rfl
  | leave =>
    refine congrArg (commit s) ?_
    change (do let v ← s.mem.read32 (s.reg .ebp); Except.ok _) = _
    rw [Memory.read32_orFault]
    exact orFault_bind_ok fun _ => rfl
  | jo rel => exact congrArg (commit s) (jumpIf_orFault _ rel s)
  | jno rel => exact congrArg (commit s) (jumpIf_orFault _ rel s)
  | jc rel => exact congrArg (commit s) (jumpIf_orFault _ rel s)
  | jnc rel => exact congrArg (commit s) (jumpIf_orFault _ rel s)
  | jz rel => exact congrArg (commit s) (jumpIf_orFault _ rel s)
  | jnz rel => exact congrArg (commit s) (jumpIf_orFault _ rel s)
  | js rel => exact congrArg (commit s) (jumpIf_orFault _ rel s)
  | jns rel => exact congrArg (commit s) (jumpIf_orFault _ rel s)
  | jl rel => exact congrArg (commit s) (jumpIf_orFault _ rel s)
  | jle rel => exact congrArg (commit s) (jumpIf_orFault _ rel s)
  | inAlDx => rfl
  | outDxAl => rfl

/-- Hence the two outcomes of `exec`. -/
theorem exec_cases {i : Instr} {s t : State} (h : exec i s = .next t) :
    (firstFault (i.faults s) = none ∧ t = i.effect s) ∨ ∃ c, firstFault (i.faults s) = some c ∧ t = s.raise c := by
  rw [exec_eq] at h
  cases hf : firstFault (i.faults s) with
  | none =>
    rw [orFault_of_none hf] at h
    cases h
    exact .inl ⟨rfl, rfl⟩
  | some c =>
    rw [orFault_of_some hf] at h
    cases h
    exact .inr ⟨c, rfl, rfl⟩

theorem exec_of_none {i : Instr} {s : State} (h : firstFault (i.faults s) = none) :
    exec i s = .next (i.effect s) := by
  rw [exec_eq, orFault_of_none h]
  rfl

theorem exec_of_some {i : Instr} {s : State} {c : Condition} (h : firstFault (i.faults s) = some c) :
    exec i s = .next (s.raise c) := by
  rw [exec_eq, orFault_of_some h]
  rfl

/-! ### Lengths -/

@[simp] theorem length_encodeModRM (reg : BitVec 3) (rm : Rm (BitVec 3)) : (encodeModRM reg rm).length = rm.size := by
  cases rm with
  | reg r => rfl
  | mem m => cases m <;> rfl

@[simp] theorem size_map {ρ σ : Type} (f : ρ → σ) (rm : Rm ρ) : (rm.map f).size = rm.size := by
  cases rm with
  | reg r => rfl
  | mem m => cases m <;> rfl

/-! ### Frames of an operand write -/

/-- A register that is not the operand is kept. -/
theorem State.storeRm32_reg (s : State) {rm : Rm Reg32} (v : Word) {r : Reg32} (h : rm.isReg32 r = false) :
    (s.storeRm32 rm v).reg r = s.reg r := by
  cases rm with
  | reg d =>
    have hd : r ≠ d := by simpa [Rm.isReg32] using h
    simp [State.storeRm32, State.reg, hd]
  | mem m => cases m <;> rfl

theorem State.storeRm8_reg (s : State) {rm : Rm Reg8} (v : Byte) {r : Reg32} (h : rm.isReg8 r = false) :
    (s.storeRm8 rm v).reg r = s.reg r := by
  cases rm with
  | reg d => exact Registers.get_set8_parent _ _ _ _ (by simpa [Rm.isReg8] using h)
  | mem m => cases m <;> rfl

@[simp] theorem State.storeRm32_size (s : State) (rm : Rm Reg32) (v : Word) :
    (s.storeRm32 rm v).mem.size = s.mem.size := by
  cases rm with
  | reg d => rfl
  | mem m => cases m <;> rfl

@[simp] theorem State.storeRm8_size (s : State) (rm : Rm Reg8) (v : Byte) :
    (s.storeRm8 rm v).mem.size = s.mem.size := by
  cases rm with
  | reg d => rfl
  | mem m => cases m <;> rfl

/-- A write that fits keeps memory in canonical form. -/
theorem State.storeRm32_wf {s : State} (hw : s.mem.wf = true) {rm : Rm Reg32} (v : Word)
    (h : firstFault (accessFault s rm 4 .write) = none) : (s.storeRm32 rm v).mem.wf = true := by
  cases rm with
  | reg d => exact hw
  | mem m =>
    simp only [accessFault, State.storeRm32] at h ⊢
    split at h
    · rename_i a ha
      refine Memory.setWord_wf hw (Memory.fits_iff.1 ?_) v
      simpa [firstFault, State.outside] using h
    · rename_i ha
      simpa only [ha] using hw

theorem State.storeRm8_wf {s : State} (hw : s.mem.wf = true) {rm : Rm Reg8} (v : Byte)
    (h : firstFault (accessFault s rm 1 .write) = none) : (s.storeRm8 rm v).mem.wf = true := by
  cases rm with
  | reg d => exact hw
  | mem m =>
    simp only [accessFault, State.storeRm8] at h ⊢
    split at h
    · rename_i a ha
      refine Memory.setByte_wf hw (Memory.fits_iff (n := 1).1 ?_) v
      simpa [firstFault, State.outside] using h
    · rename_i ha
      simpa only [ha] using hw

/-! ### What every instruction keeps -/

@[simp] theorem effect_status (i : Instr) (s : State) : (i.effect s).status = s.status := by
  cases i <;> first | rfl | simp [Instr.effect]

@[simp] theorem effect_size (i : Instr) (s : State) : (i.effect s).mem.size = s.mem.size := by
  cases i <;> first | rfl | simp [Instr.effect]

/-! ### A step -/

/-- `exec` always has a next state. -/
theorem exec_total (i : Instr) (s : State) : ∃ t, exec i s = .next t := by
  rcases commit_cases s (orFault (i.faults s) (i.effect s)) with ⟨t, -, h⟩ | ⟨c, -, h⟩
  · exact ⟨t, (exec_eq i s).trans h⟩
  · exact ⟨_, (exec_eq i s).trans h⟩

@[simp] theorem length_window (s : State) : s.window.length = maxLength := by simp [State.window]

theorem window_getElem? (s : State) {k : Nat} (h : k < maxLength) :
    s.window[k]? = some (s.at (s.pc + BitVec.ofNat 32 k)) := by
  simp [State.window, State.at, h]

/-- The first byte of the window is the byte at `pc`. -/
theorem window_eq_cons (s : State) : ∃ rest, s.window = s.at s.pc :: rest ∧ rest.length = 9 := by
  have h0 := window_getElem? s (k := 0) (by decide)
  have hl := length_window s
  rw [show s.pc + BitVec.ofNat 32 0 = s.pc from BitVec.add_zero s.pc] at h0
  cases hw : s.window with
  | nil => simp [hw] at h0
  | cons b rest =>
    rw [hw] at h0 hl
    simp only [List.getElem?_cons_zero, Option.some.injEq] at h0
    exact ⟨rest, by rw [h0], by simpa [maxLength] using hl⟩

end Sys2Proof.Machine
end

