-- ==== Sys2Proof/Laws/PerInstr.lean ====
section
/-! SUPPORT. Statements about every instruction as syntax, one lemma per constructor. -/

namespace Sys2Proof.Laws.LengthBound

/-- "An instruction is a sequence of 1 to 10 bytes" (30_encoding R80). -/
def Statement (i : Instr) : Prop := 1 ≤ i.length ∧ i.length ≤ maxLength

/-- An operand takes one to five addressing bytes. -/
theorem encodeModRM_bound (reg : BitVec 3) (rm : Rm (BitVec 3)) :
    1 ≤ (encodeModRM reg rm).length ∧ (encodeModRM reg rm).length ≤ 5 := by
  cases rm with
  | reg r => simp [encodeModRM]
  | mem m => cases m <;> simp [encodeModRM, MemForm.tail]

theorem encodeRm32_bound (reg : BitVec 3) (rm : Rm Reg32) : (encodeRm32 reg rm).length ≤ 5 :=
  (encodeModRM_bound _ _).2

theorem encodeRm8_bound (reg : BitVec 3) (rm : Rm Reg8) : (encodeRm8 reg rm).length ≤ 5 :=
  (encodeModRM_bound _ _).2

theorem pushR32 (r : Reg32) : Statement (.pushR32 r) := by simp [Statement, Instr.length, encode, maxLength]
theorem popR32 (r : Reg32) : Statement (.popR32 r) := by simp [Statement, Instr.length, encode, maxLength]
theorem incR32 (r : Reg32) : Statement (.incR32 r) := by simp [Statement, Instr.length, encode, maxLength]
theorem movR32Imm32 (r : Reg32) (imm : Word) : Statement (.movR32Imm32 r imm) := by
  simp [Statement, Instr.length, encode, maxLength]
theorem movR8Imm8 (r : Reg8) (imm : Byte) : Statement (.movR8Imm8 r imm) := by
  simp [Statement, Instr.length, encode, maxLength]
theorem pushImm8 (imm : Byte) : Statement (.pushImm8 imm) := by simp [Statement, Instr.length, encode, maxLength]
theorem pushImm32 (imm : Word) : Statement (.pushImm32 imm) := by simp [Statement, Instr.length, encode, maxLength]
theorem addRm32Imm8 (rm : Rm Reg32) (imm : Byte) : Statement (.addRm32Imm8 rm imm) := by
  have := encodeRm32_bound 0#3 rm
  simp [Statement, Instr.length, encode, maxLength]; omega
theorem subRm32Imm8 (rm : Rm Reg32) (imm : Byte) : Statement (.subRm32Imm8 rm imm) := by
  have := encodeRm32_bound 5#3 rm
  simp [Statement, Instr.length, encode, maxLength]; omega
theorem cmpRm32Imm8 (rm : Rm Reg32) (imm : Byte) : Statement (.cmpRm32Imm8 rm imm) := by
  have := encodeRm32_bound 7#3 rm
  simp [Statement, Instr.length, encode, maxLength]; omega
theorem incRm32 (rm : Rm Reg32) : Statement (.incRm32 rm) := by
  have := encodeRm32_bound 0#3 rm
  simp [Statement, Instr.length, encode, maxLength]; omega
theorem movRm32Imm32 (rm : Rm Reg32) (imm : Word) : Statement (.movRm32Imm32 rm imm) := by
  have := encodeRm32_bound 0#3 rm
  simp [Statement, Instr.length, encode, maxLength]; omega
theorem addRm32R32 (rm : Rm Reg32) (r : Reg32) : Statement (.addRm32R32 rm r) := by
  have := encodeRm32_bound r.toBits rm
  simp [Statement, Instr.length, encode, maxLength]; omega
theorem cmpR32Rm32 (r : Reg32) (rm : Rm Reg32) : Statement (.cmpR32Rm32 r rm) := by
  have := encodeRm32_bound r.toBits rm
  simp [Statement, Instr.length, encode, maxLength]; omega
theorem movRm8R8 (rm : Rm Reg8) (r : Reg8) : Statement (.movRm8R8 rm r) := by
  have := encodeRm8_bound r.toBits rm
  simp [Statement, Instr.length, encode, maxLength]; omega
theorem movRm32R32 (rm : Rm Reg32) (r : Reg32) : Statement (.movRm32R32 rm r) := by
  have := encodeRm32_bound r.toBits rm
  simp [Statement, Instr.length, encode, maxLength]; omega
theorem movR8Rm8 (r : Reg8) (rm : Rm Reg8) : Statement (.movR8Rm8 r rm) := by
  have := encodeRm8_bound r.toBits rm
  simp [Statement, Instr.length, encode, maxLength]; omega
theorem movR32Rm32 (r : Reg32) (rm : Rm Reg32) : Statement (.movR32Rm32 r rm) := by
  have := encodeRm32_bound r.toBits rm
  simp [Statement, Instr.length, encode, maxLength]; omega
theorem cmpAlImm8 (imm : Byte) : Statement (.cmpAlImm8 imm) := by simp [Statement, Instr.length, encode, maxLength]
theorem cmpEaxImm32 (imm : Word) : Statement (.cmpEaxImm32 imm) := by
  simp [Statement, Instr.length, encode, maxLength]
theorem jmpRel8 (rel : Byte) : Statement (.jmpRel8 rel) := by simp [Statement, Instr.length, encode, maxLength]
theorem jmpRel32 (rel : Word) : Statement (.jmpRel32 rel) := by simp [Statement, Instr.length, encode, maxLength]
theorem callRel32 (rel : Word) : Statement (.callRel32 rel) := by simp [Statement, Instr.length, encode, maxLength]
theorem ret : Statement .ret := by simp [Statement, Instr.length, encode, maxLength]
theorem leave : Statement .leave := by simp [Statement, Instr.length, encode, maxLength]
theorem jo (rel : Byte) : Statement (.jo rel) := by simp [Statement, Instr.length, encode, maxLength]
theorem jno (rel : Byte) : Statement (.jno rel) := by simp [Statement, Instr.length, encode, maxLength]
theorem jc (rel : Byte) : Statement (.jc rel) := by simp [Statement, Instr.length, encode, maxLength]
theorem jnc (rel : Byte) : Statement (.jnc rel) := by simp [Statement, Instr.length, encode, maxLength]
theorem jz (rel : Byte) : Statement (.jz rel) := by simp [Statement, Instr.length, encode, maxLength]
theorem jnz (rel : Byte) : Statement (.jnz rel) := by simp [Statement, Instr.length, encode, maxLength]
theorem js (rel : Byte) : Statement (.js rel) := by simp [Statement, Instr.length, encode, maxLength]
theorem jns (rel : Byte) : Statement (.jns rel) := by simp [Statement, Instr.length, encode, maxLength]
theorem jl (rel : Byte) : Statement (.jl rel) := by simp [Statement, Instr.length, encode, maxLength]
theorem jle (rel : Byte) : Statement (.jle rel) := by simp [Statement, Instr.length, encode, maxLength]
theorem inAlDx : Statement .inAlDx := by simp [Statement, Instr.length, encode, maxLength]
theorem outDxAl : Statement .outDxAl := by simp [Statement, Instr.length, encode, maxLength]

end Sys2Proof.Laws.LengthBound
end

