-- ==== Sys2Proof/Tests/Slice0.lean ====
section
/-! SUPPORT. Tests of one step each, with expected results from spec/95_test_vectors.md (the vector is named before each
test) or from the rule named; and for every obligation with hypotheses a witness that they can be met. -/

namespace Sys2Proof.Tests

open Machine

/-! ### Helpers -/

/-- The canonical start state with bytes placed at an address. -/
def bytesAt (a : Word) (bs : List Byte) : State := { State.reset with mem := State.reset.mem.placeBytes a bs }

/-- The canonical start state with an image at 0x7C00. -/
def image (bs : List Byte) : State := bytesAt 0x7C00 bs

def poke (s : State) (a : Word) (bs : List Byte) : State := { s with mem := s.mem.placeBytes a bs }

/-- The instruction of a byte string. -/
def decoded (bs : List Byte) : Option (Instr × List Byte) :=
  match decode bs with
  | .ok p => some p
  | .error _ => none

/-- Why a byte string is none. -/
def rejected (bs : List Byte) : Option Reject :=
  match decode bs with
  | .ok _ => none
  | .error r => some r

/-- What `f` sees after one step. -/
def after {α : Type} (s : State) (f : State → α) : Option α :=
  match step s with
  | .next t => some (f t)
  | .fault _ => none
  | .refused _ => none

/-! ### WellFormed refuses what R93 cannot encode -/

theorem test_wf_base_esp : (MemForm.ind .esp).wellFormed = false := by decide
theorem test_wf_base_ebp : (MemForm.ind .ebp).wellFormed = false := by decide
theorem test_wf_disp8_esp : (MemForm.disp8 .esp 0).wellFormed = false := by decide
theorem test_wf_disp32_esp : (MemForm.disp32 .esp 0).wellFormed = false := by decide
theorem test_wf_add_rm32_imm8 : (Instr.addRm32Imm8 (.mem (.ind .esp)) 1).wellFormed = false := by decide
theorem test_wf_sub_rm32_imm8 : (Instr.subRm32Imm8 (.mem (.ind .ebp)) 1).wellFormed = false := by decide
theorem test_wf_cmp_rm32_imm8 : (Instr.cmpRm32Imm8 (.mem (.disp8 .esp 4)) 1).wellFormed = false := by decide
theorem test_wf_inc_rm32 : (Instr.incRm32 (.mem (.disp32 .esp 4))).wellFormed = false := by decide
theorem test_wf_mov_rm32_imm32 : (Instr.movRm32Imm32 (.mem (.ind .esp)) 1).wellFormed = false := by decide
theorem test_wf_add_rm32_r32 : (Instr.addRm32R32 (.mem (.ind .ebp)) .eax).wellFormed = false := by decide
theorem test_wf_cmp_r32_rm32 : (Instr.cmpR32Rm32 .eax (.mem (.ind .esp))).wellFormed = false := by decide
theorem test_wf_mov_rm8_r8 : (Instr.movRm8R8 (.mem (.ind .esp)) .al).wellFormed = false := by decide
theorem test_wf_mov_rm32_r32 : (Instr.movRm32R32 (.mem (.disp8 .esp 0)) .eax).wellFormed = false := by decide
theorem test_wf_mov_r8_rm8 : (Instr.movR8Rm8 .al (.mem (.ind .ebp))).wellFormed = false := by decide
theorem test_wf_mov_r32_rm32 : (Instr.movR32Rm32 .eax (.mem (.disp32 .esp 0))).wellFormed = false := by decide

/-! ### Decoding, by words written out from R81, R84, R88, R92, R100 -/

theorem test_decode_register_coded :
    decoded [0x55] = some (.pushR32 .ebp, []) ∧
    decoded [0x5F] = some (.popR32 .edi, []) ∧
    decoded [0x43] = some (.incR32 .ebx, []) ∧
    decoded [0xBC, 0x00, 0x80, 0x00, 0x00] = some (.movR32Imm32 .esp 0x8000, []) ∧
    decoded [0xB7, 0xFF] = some (.movR8Imm8 .bh 0xFF, []) ∧
    decoded [0x6A, 0x80] = some (.pushImm8 0x80, []) ∧
    decoded [0x68, 0x78, 0x56, 0x34, 0x12] = some (.pushImm32 0x12345678, []) := by decide

theorem test_decode_opcode_groups :
    decoded [0x83, 0xC4, 0x08] = some (.addRm32Imm8 (.reg .esp) 8, []) ∧
    decoded [0x83, 0xEC, 0x10] = some (.subRm32Imm8 (.reg .esp) 0x10, []) ∧
    decoded [0x83, 0x7D, 0xF8, 0x0A] = some (.cmpRm32Imm8 (.mem (.disp8 .ebp 0xF8)) 0x0A, []) ∧
    decoded [0xFF, 0x45, 0xF8] = some (.incRm32 (.mem (.disp8 .ebp 0xF8)), []) ∧
    decoded [0xC7, 0x05, 0x00, 0x80, 0x00, 0x00, 0xEF, 0xBE, 0xAD, 0xDE] = some (.movRm32Imm32 (.mem (.abs 0x8000)) 0xDEADBEEF, []) := by decide

theorem test_decode_two_operand :
    decoded [0x01, 0x45, 0xFC] = some (.addRm32R32 (.mem (.disp8 .ebp 0xFC)) .eax, []) ∧
    decoded [0x3B, 0x4D, 0x08] = some (.cmpR32Rm32 .ecx (.mem (.disp8 .ebp 8)), []) ∧
    decoded [0x88, 0x23] = some (.movRm8R8 (.mem (.ind .ebx)) .ah, []) ∧
    decoded [0x89, 0xE5] = some (.movRm32R32 (.reg .ebp) .esp, []) ∧
    decoded [0x8A, 0xD7] = some (.movR8Rm8 .dl (.reg .bh), []) ∧
    decoded [0x8B, 0x93, 0x00, 0x01, 0x00, 0x00] = some (.movR32Rm32 .edx (.mem (.disp32 .ebx 0x100)), []) ∧
    decoded [0x3C, 0x41] = some (.cmpAlImm8 0x41, []) ∧
    decoded [0x3D, 0x01, 0x00, 0x00, 0x00] = some (.cmpEaxImm32 1, []) := by decide

theorem test_decode_control_transfer :
    decoded [0xEB, 0x80] = some (.jmpRel8 0x80, []) ∧
    decoded [0xE9, 0xFB, 0x83, 0xFF, 0xFF] = some (.jmpRel32 0xFFFF83FB, []) ∧
    decoded [0xE8, 0x03, 0x00, 0x00, 0x00] = some (.callRel32 3, []) ∧
    decoded [0xC3] = some (.ret, []) ∧
    decoded [0xC9] = some (.leave, []) := by decide

theorem test_decode_conditional_jumps :
    decoded [0x70, 0x10] = some (.jo 0x10, []) ∧
    decoded [0x71, 0x10] = some (.jno 0x10, []) ∧
    decoded [0x72, 0x10] = some (.jc 0x10, []) ∧
    decoded [0x73, 0x10] = some (.jnc 0x10, []) ∧
    decoded [0x74, 0x10] = some (.jz 0x10, []) ∧
    decoded [0x75, 0x10] = some (.jnz 0x10, []) ∧
    decoded [0x78, 0x10] = some (.js 0x10, []) ∧
    decoded [0x79, 0x10] = some (.jns 0x10, []) ∧
    decoded [0x7C, 0x10] = some (.jl 0x10, []) ∧
    decoded [0x7E, 0x10] = some (.jle 0x10, []) := by decide

theorem test_decode_port_io :
    decoded [0xEC] = some (.inAlDx, []) ∧
    decoded [0xEE] = some (.outDxAl, []) := by decide

/-- The SIB form (R90) and the bytes after an instruction, which stay (R83). -/
theorem test_decode_sib_and_rest :
    decoded [0x8B, 0x44, 0x24, 0x04] = some (.movR32Rm32 .eax (.mem (.sib .mod1 0x24)), [0x04]) := by decide

/-- Unmapped bytes (vectors F1, F3, F6) and unassigned sub-opcodes (G10, G15, G19). -/
theorem test_decode_rejects :
    rejected [0xF1] = some (.opcode 0xF1) ∧ rejected [0x90] = some (.opcode 0x90) ∧
    rejected [0x66, 0xB8] = some (.opcode 0x66) ∧
    rejected [0x83, 0xC8, 0x01] = some (.subOpcode 0x83 1 (.reg 0)) ∧
    rejected [0xFF, 0xD0] = some (.subOpcode 0xFF 2 (.reg 0)) ∧
    rejected [0xC7, 0x48, 0x00] = some (.subOpcode 0xC7 1 (.mem (.disp8 .eax 0))) ∧
    rejected [0x68, 0x01] = some .truncated := by decide

/-- The same words as numbers, numbered as the opcode table numbers them (R110). -/
theorem test_decode_table_words :
    decodeTableWord 8 0x55 = some (.pushR32 .ebp) ∧ decodeTableWord 16 0x2883 = some (.subRm32Imm8 (.mem (.ind .eax)) 0) ∧
    decodeTableWord 16 0x806A = some (.pushImm8 0x80) ∧ decodeTableWord 8 0xF1 = none := by decide

/-! ### One step of each instruction -/

/-- Vector V2. -/
theorem test_push_esp : after ((image [0x54]).setReg .esp 0x7BF0) (fun t => (t.mem.wordAt 0x7BEC, t.reg .esp, t.pc))
    = some (0x7BF0, 0x7BEC, 0x7C01) := by decide

/-- Vector V14. -/
theorem test_push_wraps_out : after ((image [0x50]).setReg .esp 2) (fun t => (t.reg .esp, t.pc, t.status))
    = some (2, 0x7C00, .fatal (.outOfBounds 0xFFFFFFFE 4 .write)) := by decide

/-- Vector V3. -/
theorem test_pop_esp : after (poke ((image [0x5C]).setReg .esp 0x7BF0) 0x7BF0 [0x78, 0x56, 0x34, 0x12]) (fun t => (t.reg .esp, t.pc))
    = some (0x12345678, 0x7C01) := by decide

/-- Vector V17. -/
theorem test_pop_last_word : after (poke ((image [0x58]).setReg .esp 0xFFFFC) 0xFFFFC [0x01, 0x02, 0x03, 0x04]) (fun t => (t.reg .eax, t.reg .esp))
    = some (0x04030201, 0x100000) := by decide

/-- Vector V5. -/
theorem test_inc_r32_wraps : after { (image [0x41]).setReg .ecx 0xFFFFFFFF with flags := 0x8D5 } (fun t => (t.reg .ecx, t.flags, t.pc))
    = some (0, 0x8D5, 0x7C01) := by decide

/-- Vector V7. -/
theorem test_mov_r32_imm32 : after (image [0xBC, 0x00, 0x80, 0x00, 0x00]) (fun t => (t.reg .esp, t.pc))
    = some (0x8000, 0x7C05) := by decide

/-- Vector F8. -/
theorem test_mov_r32_imm32_at_end : after { bytesAt 0xFFFFE [0xB8] with pc := 0xFFFFE } (fun t => (t.reg .eax, t.pc, t.status))
    = some (0, 0xFFFFE, .fatal (.outOfBounds 0xFFFFF 4 .fetch)) := by decide

/-- Vector V8. -/
theorem test_mov_r8_imm8_high : after ((image [0xB4, 0xAB]).setReg .eax 0x11223344) (fun t => (t.reg .eax, t.pc))
    = some (0x1122AB44, 0x7C02) := by decide

/-- Vector V10. -/
theorem test_mov_r8_imm8_low : after ((image [0xB1, 0x00]).setReg .ecx 0x11223344) (fun t => (t.reg .ecx))
    = some (0x11223300) := by decide

/-- Vector V11. -/
theorem test_push_imm8_sign : after (image [0x6A, 0x80]) (fun t => (t.mem.wordAt 0x7BFC, t.reg .esp, t.pc))
    = some (0xFFFFFF80, 0x7BFC, 0x7C02) := by decide

/-- Vector V18. -/
theorem test_push_imm8_bottom : after ((image [0x6A, 0x01]).setReg .esp 4) (fun t => (t.mem.wordAt 0, t.reg .esp, t.pc))
    = some (1, 0, 0x7C02) := by decide

/-- Vector V13. -/
theorem test_push_imm32 : after (image [0x68, 0x78, 0x56, 0x34, 0x12]) (fun t => (t.mem.wordAt 0x7BFC, t.pc))
    = some (0x12345678, 0x7C05) := by decide

/-- Vector G2. -/
theorem test_add_rm32_imm8_keeps_flags : after { (image [0x83, 0xC0, 0xFF]).setReg .eax 1 with flags := 0x881 } (fun t => (t.reg .eax, t.flags, t.pc))
    = some (0, 0x881, 0x7C03) := by decide

/-- Vector G21. -/
theorem test_add_rm32_imm8_address_wraps : after ((image [0x83, 0x43, 0x01, 0x05]).setReg .ebx 0xFFFFFFFF) (fun t => (t.mem.wordAt 0, t.pc))
    = some (5, 0x7C04) := by decide

/-- Vector G4. -/
theorem test_sub_rm32_imm8_borrow : after (image [0x83, 0xE8, 0x01]) (fun t => (t.reg .eax, t.flags, t.pc))
    = some (0xFFFFFFFF, 0x81, 0x7C03) := by decide

/-- Vector G5. -/
theorem test_sub_rm32_imm8_overflow : after ((image [0x83, 0xE8, 0x01]).setReg .eax 0x80000000) (fun t => (t.reg .eax, t.flags))
    = some (0x7FFFFFFF, 0x800) := by decide

/-- Vector G7. -/
theorem test_cmp_rm32_imm8 : after (poke ((image [0x83, 0x7D, 0xF8, 0x0A]).setReg .ebp 0x7BFC) 0x7BF4 [0x0A, 0x00, 0x00, 0x00]) (fun t => (t.mem.wordAt 0x7BF4, t.flags, t.pc))
    = some (10, 0x40, 0x7C04) := by decide

/-- Vector G9. -/
theorem test_cmp_rm32_imm8_sign : after ((image [0x83, 0xF8, 0xFF]).setReg .eax 0xFFFFFFFF) (fun t => (t.flags))
    = some (0x40) := by decide

/-- Vector G12. -/
theorem test_inc_rm32 : after { poke ((image [0xFF, 0x45, 0xF8]).setReg .ebp 0x7BFC) 0x7BF4 [0xFF, 0xFF, 0xFF, 0xFF] with flags := 0x40 } (fun t => (t.mem.wordAt 0x7BF4, t.flags, t.pc))
    = some (0, 0x40, 0x7C03) := by decide

/-- Vector G22. -/
theorem test_inc_rm32_sib : after (image [0xFF, 0x04, 0x24]) (fun t => (t.pc, t.status))
    = some (0x7C00, .fatal (.unimplementedAddressing 0x04)) := by decide

/-- Vector G18. -/
theorem test_mov_rm32_imm32 : after (image [0xC7, 0x05, 0x00, 0x80, 0x00, 0x00, 0xEF, 0xBE, 0xAD, 0xDE]) (fun t => (t.mem.wordAt 0x8000, t.pc))
    = some (0xDEADBEEF, 0x7C0A) := by decide

/-- Vector G20. -/
theorem test_mov_rm32_imm32_out : after ((image [0xC7, 0x03, 0x01, 0x00, 0x00, 0x00]).setReg .ebx 0xFFFFE) (fun t => (t.mem.byteAt 0xFFFFE, t.status))
    = some (0, .fatal (.outOfBounds 0xFFFFE 4 .write)) := by decide

/-- Vector T3. -/
theorem test_add_rm32_r32_same_register : after ((image [0x01, 0xC0]).setReg .eax 0x80000001) (fun t => (t.reg .eax, t.flags, t.pc))
    = some (2, 0, 0x7C02) := by decide

/-- Vector T4. -/
theorem test_add_rm32_r32_memory : after (poke (((image [0x01, 0x45, 0xFC]).setReg .ebp 0x7BFC).setReg .eax 7) 0x7BF8 [0x03, 0x00, 0x00, 0x00]) (fun t => (t.mem.wordAt 0x7BF8, t.reg .eax, t.pc))
    = some (10, 7, 0x7C03) := by decide

/-- Vector T5. -/
theorem test_cmp_r32_rm32_order : after (((image [0x3B, 0xC3]).setReg .eax 3).setReg .ebx 5) (fun t => (t.flags, t.pc))
    = some (0x81, 0x7C02) := by decide

/-- Vector T7. -/
theorem test_cmp_r32_rm32_overflow : after (poke (((image [0x3B, 0x4D, 0x08]).setReg .ecx 0x80000000).setReg .ebp 0x7BFC) 0x7C04 [0x01, 0x00, 0x00, 0x00]) (fun t => (t.flags, t.reg .ecx, t.pc))
    = some (0x800, 0x80000000, 0x7C03) := by decide

/-- Vector T9. -/
theorem test_mov_rm8_r8_high : after (((image [0x88, 0x23]).setReg .eax 0x11223344).setReg .ebx 0x8000) (fun t => (t.mem.wordAt 0x8000, t.pc))
    = some (0x33, 0x7C02) := by decide

/-- Vector T10. -/
theorem test_mov_rm8_r8_register : after (((image [0x88, 0xC5]).setReg .eax 0x11223344).setReg .ecx 0xAABBCCDD) (fun t => (t.reg .ecx, t.reg .eax))
    = some (0xAABB44DD, 0x11223344) := by decide

/-- Vector T11. -/
theorem test_mov_rm32_r32 : after (((image [0x89, 0x45, 0xFC]).setReg .eax 0x11223344).setReg .ebp 0x7BFC) (fun t => (t.mem.byteAt 0x7BF8, t.mem.byteAt 0x7BFB, t.pc))
    = some (0x44, 0x11, 0x7C03) := by decide

/-- Vector T14. -/
theorem test_mov_r8_rm8 : after (((image [0x8A, 0xD7]).setReg .ebx 0x11223344).setReg .edx 0xAABBCCDD) (fun t => (t.reg .edx, t.pc))
    = some (0xAABBCC33, 0x7C02) := by decide

/-- Vector T29. -/
theorem test_mov_r8_rm8_past_end : after ((image [0x8A, 0x03]).setReg .ebx 0x100000) (fun t => (t.reg .eax, t.status))
    = some (0, .fatal (.outOfBounds 0x100000 1 .read)) := by decide

/-- Vector T17. -/
theorem test_mov_r32_rm32_disp32 : after (poke ((image [0x8B, 0x93, 0x00, 0x01, 0x00, 0x00]).setReg .ebx 0x7000) 0x7100 [0x44, 0x33, 0x22, 0x11]) (fun t => (t.reg .edx, t.pc))
    = some (0x11223344, 0x7C06) := by decide

/-- Vector T26. -/
theorem test_mov_r32_rm32_sib : after (image [0x8B, 0x44, 0x24, 0x04]) (fun t => (t.reg .eax, t.status))
    = some (0, .fatal (.unimplementedAddressing 0x44)) := by decide

/-- Vector T21. -/
theorem test_cmp_al_imm8_no_overflow : after ((image [0x3C, 0x01]).setReg .eax 0x80) (fun t => (t.flags, t.pc))
    = some (0, 0x7C02) := by decide

/-- Vector T20. -/
theorem test_cmp_al_imm8_upper_ignored : after ((image [0x3C, 0x01]).setReg .eax 0xFFFFFF00) (fun t => (t.flags))
    = some (0x81) := by decide

/-- Vector T23. -/
theorem test_cmp_eax_imm32 : after ((image [0x3D, 0x01, 0x00, 0x00, 0x00]).setReg .eax 0x80000000) (fun t => (t.flags, t.pc))
    = some (0x800, 0x7C05) := by decide

/-- Vector J3. -/
theorem test_jmp_rel8_back : after (image [0xEB, 0x80]) (fun t => (t.pc, t.status))
    = some (0x7B82, .running) := by decide

/-- Vector J4. -/
theorem test_jmp_rel32_halts : after (image [0xE9, 0xFB, 0x83, 0xFF, 0xFF]) (fun t => (t.pc, t.status))
    = some (0, .haltNormal) := by decide

/-- Vector J5, first cycle. -/
theorem test_jmp_rel32_out : after (image [0xE9, 0xFB, 0x83, 0x0F, 0x00]) (fun t => (t.pc, t.status))
    = some (0x100000, .running) := by decide

/-- Vector J6. -/
theorem test_call : after (image [0xE8, 0x03, 0x00, 0x00, 0x00]) (fun t => (t.mem.wordAt 0x7BFC, t.reg .esp, t.pc))
    = some (0x7C05, 0x7BFC, 0x7C08) := by decide

/-- Vector J7. -/
theorem test_call_out : after ((image [0xE8, 0x03, 0x00, 0x00, 0x00]).setReg .esp 0) (fun t => (t.reg .esp, t.pc, t.status))
    = some (0, 0x7C00, .fatal (.outOfBounds 0xFFFFFFFC 4 .write)) := by decide

/-- Vector J9. -/
theorem test_ret : after (poke ((image [0xC3]).setReg .esp 0x7BFC) 0x7BFC [0x05, 0x7C, 0x00, 0x00]) (fun t => (t.pc, t.reg .esp))
    = some (0x7C05, 0x7C00) := by decide

/-- Vector J11. -/
theorem test_leave : after (poke (((image [0xC9]).setReg .ebp 0x7BF8).setReg .esp 0x7BE8) 0x7BF8 [0x00, 0x7C, 0x00, 0x00]) (fun t => (t.reg .esp, t.reg .ebp, t.pc))
    = some (0x7BFC, 0x7C00, 0x7C01) := by decide

/-- Vector J12. -/
theorem test_leave_out : after (((image [0xC9]).setReg .ebp 0xFFFFE).setReg .esp 0x7BE8) (fun t => (t.reg .esp, t.reg .ebp, t.status))
    = some (0x7BE8, 0xFFFFE, .fatal (.outOfBounds 0xFFFFE 4 .read)) := by decide

/-- `pc` after the jump `op 10` with the given flags. -/
def jump (op : Byte) (f : Word) : Option Word := after { image [op, 0x10] with flags := f } (·.pc)

/-- The row of JO in the table of 2.6. -/
theorem test_jo : [0, 1, 0x40, 0x80, 0x800, 0x880, 0x8C0, 0x41].map (jump 0x70) =
    [some 0x7C02, some 0x7C02, some 0x7C02, some 0x7C02,
      some 0x7C12, some 0x7C12, some 0x7C12, some 0x7C02] := by decide

/-- The row of JNO in the table of 2.6. -/
theorem test_jno : [0, 1, 0x40, 0x80, 0x800, 0x880, 0x8C0, 0x41].map (jump 0x71) =
    [some 0x7C12, some 0x7C12, some 0x7C12, some 0x7C12,
      some 0x7C02, some 0x7C02, some 0x7C02, some 0x7C12] := by decide

/-- The row of JC in the table of 2.6. -/
theorem test_jc : [0, 1, 0x40, 0x80, 0x800, 0x880, 0x8C0, 0x41].map (jump 0x72) =
    [some 0x7C02, some 0x7C12, some 0x7C02, some 0x7C02,
      some 0x7C02, some 0x7C02, some 0x7C02, some 0x7C12] := by decide

/-- The row of JNC in the table of 2.6. -/
theorem test_jnc : [0, 1, 0x40, 0x80, 0x800, 0x880, 0x8C0, 0x41].map (jump 0x73) =
    [some 0x7C12, some 0x7C02, some 0x7C12, some 0x7C12,
      some 0x7C12, some 0x7C12, some 0x7C12, some 0x7C02] := by decide

/-- The row of JZ in the table of 2.6. -/
theorem test_jz : [0, 1, 0x40, 0x80, 0x800, 0x880, 0x8C0, 0x41].map (jump 0x74) =
    [some 0x7C02, some 0x7C02, some 0x7C12, some 0x7C02,
      some 0x7C02, some 0x7C02, some 0x7C12, some 0x7C12] := by decide

/-- The row of JNZ in the table of 2.6. -/
theorem test_jnz : [0, 1, 0x40, 0x80, 0x800, 0x880, 0x8C0, 0x41].map (jump 0x75) =
    [some 0x7C12, some 0x7C12, some 0x7C02, some 0x7C12,
      some 0x7C12, some 0x7C12, some 0x7C02, some 0x7C02] := by decide

/-- The row of JS in the table of 2.6. -/
theorem test_js : [0, 1, 0x40, 0x80, 0x800, 0x880, 0x8C0, 0x41].map (jump 0x78) =
    [some 0x7C02, some 0x7C02, some 0x7C02, some 0x7C12,
      some 0x7C02, some 0x7C12, some 0x7C12, some 0x7C02] := by decide

/-- The row of JNS in the table of 2.6. -/
theorem test_jns : [0, 1, 0x40, 0x80, 0x800, 0x880, 0x8C0, 0x41].map (jump 0x79) =
    [some 0x7C12, some 0x7C12, some 0x7C12, some 0x7C02,
      some 0x7C12, some 0x7C02, some 0x7C02, some 0x7C12] := by decide

/-- The row of JL in the table of 2.6. -/
theorem test_jl : [0, 1, 0x40, 0x80, 0x800, 0x880, 0x8C0, 0x41].map (jump 0x7C) =
    [some 0x7C02, some 0x7C02, some 0x7C02, some 0x7C12,
      some 0x7C12, some 0x7C02, some 0x7C02, some 0x7C02] := by decide

/-- The row of JLE in the table of 2.6. -/
theorem test_jle : [0, 1, 0x40, 0x80, 0x800, 0x880, 0x8C0, 0x41].map (jump 0x7E) =
    [some 0x7C02, some 0x7C02, some 0x7C12, some 0x7C12,
      some 0x7C12, some 0x7C02, some 0x7C12, some 0x7C12] := by decide

/-- Vector K1, first cycle. -/
theorem test_jz_not_taken_at_end : after { bytesAt 0xFFFFF [0x74] with pc := 0xFFFFF } (fun t => (t.pc, t.status))
    = some (0x100001, .running) := by decide

/-- Vector K2. -/
theorem test_jz_taken_at_end : after { bytesAt 0xFFFFF [0x74] with pc := 0xFFFFF, flags := 0x40 } (fun t => (t.pc, t.status))
    = some (0xFFFFF, .fatal (.outOfBounds 0x100000 1 .fetch)) := by decide

/-- Vector P1. -/
theorem test_in_al_dx : after { ((image [0xEC]).setReg .edx 0x000103F8).setReg .eax 0x11223344 with portAnswers := [0x61] } (fun t => (t.reg .eax, t.portEvents, t.pc))
    = some (0x11223361, [.in8 0x3F8 0x61], 0x7C01) := by decide

/-- Vector P3. -/
theorem test_out_dx_al : after (((image [0xEE]).setReg .edx 0xFFFFFFFF).setReg .eax 0x1FF) (fun t => (t.portEvents, t.pc))
    = some ([.out8 0xFFFF 0xFF], 0x7C01) := by decide

/-! ### Stops, start, status -/

/-- Vector F1. -/
theorem test_unmapped : after (image [0xF1]) (fun t => (t.pc, t.status))
    = some (0x7C00, .fatal (.unimplementedOpcode 0xF1)) := by decide

/-- Vector G11. -/
theorem test_sub_opcode : after (image [0x83, 0x24, 0x24, 0x01]) (fun t => (t.pc, t.status))
    = some (0x7C00, .fatal (.unimplementedSubOpcode 0x83 4)) := by decide

/-- Vector F9. -/
theorem test_modrm_past_end : after { bytesAt 0xFFFFF [0x8B] with pc := 0xFFFFF } (fun t => (t.status))
    = some (.fatal (.outOfBounds 0x100000 1 .fetch)) := by decide

/-- The second cycle of vector J5. -/
theorem test_pc_out_of_range : after { State.reset with pc := 0x100000 } (fun t => (t.pc, t.status))
    = some (0x100000, .stopPcRange 0x100000) := by decide

/-- The codes of R40. -/
theorem test_status_codes : Status.running.code = 0 ∧ Status.haltNormal.code = 1 ∧ (Status.stopPcRange 0).code = 2 ∧
    (Status.fatal (.unimplementedOpcode 0)).code = 3 ∧ (Status.fatal (.unimplementedSubOpcode 0 0)).code = 4 ∧
    (Status.fatal (.unimplementedAddressing 0)).code = 5 ∧ (Status.fatal (.outOfBounds 0 1 .read)).code = 6 := by
  decide

/-- The start of vector F11: any `LOAD_ADDR` that fits (R300), and an image that does not (R303, D18). -/
theorem test_start : (State.start { Config.canonical with loadAddr := 0 } [0x40]).map (fun s => (s.pc, s.reg .esp))
    = some (0, 0) ∧ State.start { Config.canonical with memSize := 0x7C00 } [0x40] = none ∧
    State.start { Config.canonical with memSize := 0 } [] = none := by decide

/-- R304: `LOAD_ADDR` above `MEM_SIZE` starts with the empty image, and its first cycle stops. -/
theorem test_start_outside_memory :
    ((State.start { Config.canonical with memSize := 0x1000 } []).bind fun s => after s fun t => (t.status, t.pc))
      = some (.stopPcRange 0x7C00, 0x7C00) := by decide

/-- The instruction the host stores is the one that runs (vector S5). -/
theorem test_with_fetch_word : after (State.reset.withFetchWord 40 0x00000005B8) (fun t => (t.reg .eax, t.pc))
    = some (5, 0x7C05) := by decide

/-- A write of 0 leaves no cell, a write keeps the addresses rising. -/
theorem test_memory_canonical : (((State.reset.mem.setByte 5 1).setByte 3 2).setByte 5 0).cells = [(3, 2)] ∧
    ((State.reset.mem.setByte 5 1).setByte 3 2).cells = [(3, 2), (5, 1)] := by decide

/-! ### Witnesses: the hypotheses of each obligation, met together -/

/-- The start state with `cmp dword [ebp-8], 10` at `pc`. -/
def compareImage : State := image [0x83, 0x7D, 0xF8, 0x0A]

/-- `jz` in the last byte of memory. -/
def lastByte : State := { bytesAt 0xFFFFF [0x74] with pc := 0xFFFFF }

/-- A start state with ESP elsewhere. -/
def withEsp (v : Word) : State := State.reset.setReg .esp v

theorem witness_DecodeOfEncode : (Instr.cmpRm32Imm8 (.mem (.disp8 .ebp 0xF8)) 10).wellFormed = true ∧
    (Instr.movRm8R8 (.mem (.ind .ebx)) .ah).wellFormed = true := by decide

theorem witness_EncodeOfDecode : decode [0x83, 0x7D, 0xF8, 0x0A, 0x99]
    = .ok (.cmpRm32Imm8 (.mem (.disp8 .ebp 0xF8)) 10, [0x99]) := rfl

theorem witness_UnmappedOpcodesStop : (image [0xF1]).status = .running ∧
    (image [0xF1]).pc.toNat < (image [0xF1]).mem.size ∧ dispatch ((image [0xF1]).at (image [0xF1]).pc) = none := by decide

/-- A row selected; bytes that no row matches though rows have the first of them, and a byte that no row has. -/
theorem witness_TableRowsSelectInstructions : maxLength ≤ (List.replicate 8 (0 : Byte)).length + 2 ∧
    rowSelects (Instr.subRm32Imm8 (.reg .esp) 0x10).tableRow (0xEC#8 ++ 0x83#8) ∧
    (∀ i : Instr, ¬ rowSelects i.tableRow (0xC8#8 ++ 0x83#8)) ∧
    (∀ (i : Instr) (b : Byte), ¬ rowSelects i.tableRow (b ++ 0xF1#8)) := by
  refine ⟨by decide, ?_, fun i => ?_, fun i => ?_⟩
  · unfold rowSelects
    decide
  · cases i <;> simp only [rowSelects, Instr.tableRow] <;> decide
  · cases i <;> simp only [rowSelects, Instr.tableRow] <;> decide

theorem witness_StepRunsDecodedInstruction : compareImage.status = .running ∧
    compareImage.pc.toNat < compareImage.mem.size ∧
    decoded compareImage.window = some (.cmpRm32Imm8 (.mem (.disp8 .ebp 0xF8)) 10, [0, 0, 0, 0, 0, 0]) := by decide

/-- The clause about the next state. -/
theorem witness_StepRunsDecodedInstruction_next : exec .ret (withEsp 0x100) = .next
    { State.reset with regs := { State.reset.regs with esp := 0x104 }, pc := 0 } := rfl

theorem witness_StepRunsBytesInMemory : compareImage.status = .running ∧
    compareImage.pc.toNat < compareImage.mem.size ∧
    (Instr.cmpRm32Imm8 (.mem (.disp8 .ebp 0xF8)) 10).wellFormed = true ∧
    ∀ k (h : k < (encode (.cmpRm32Imm8 (.mem (.disp8 .ebp 0xF8)) 10)).length),
      compareImage.at (compareImage.pc + BitVec.ofNat 32 k) =
        (encode (.cmpRm32Imm8 (.mem (.disp8 .ebp 0xF8)) 10))[k] := by decide

/-- The byte shown for the address past the end differs from the window's. -/
theorem witness_BytesOutsideMemoryNeverMatter :
    lastByte.pc.toNat < lastByte.mem.size ∧ [0x74#8, 0xAA, 0, 0, 0, 0, 0, 0, 0, 0].length = maxLength ∧
    (∀ k < maxLength, lastByte.mem.fits (lastByte.fetchAddr k) 1 →
      [0x74#8, 0xAA, 0, 0, 0, 0, 0, 0, 0, 0][k]? = lastByte.window[k]?) ∧
    [0x74#8, 0xAA, 0, 0, 0, 0, 0, 0, 0, 0] ≠ lastByte.window := by decide

/-- An image that ends at the last byte, the smallest memory, the largest, and the empty image outside memory. -/
theorem witness_StartSequence :
    (Params.legal { Config.canonical with memSize := 1 } ∧ ([] : List Byte) = []) ∧
    (Config.canonical.legal ∧ Config.canonical.loadAddr.toNat + 512 ≤ Config.canonical.memSize) ∧
    (Params.legal { Config.canonical with memSize := 1, loadAddr := 0 } ∧ (0#32).toNat + [0x40#8].length ≤ 1) ∧
    (Params.legal { Config.canonical with memSize := 2 ^ 32, loadAddr := 0xFFFFFFFF } ∧
      (0xFFFFFFFF#32).toNat + [0x40#8].length ≤ 2 ^ 32) := by decide

/-- `LOAD_ADDR` at `MEM_SIZE` and far above it, and an image that cannot be loaded there. -/
theorem witness_StartOutsideMemory :
    (Params.legal { Config.canonical with memSize := 0x7C00 } ∧ 0x7C00 ≤ Config.canonical.loadAddr.toNat) ∧
    (Params.legal { Config.canonical with memSize := 1, loadAddr := 0xFFFFFFFF } ∧ 1 ≤ (0xFFFFFFFF#32).toNat) ∧
    [0x40#8] ≠ [] := by decide

theorem witness_RegisterAccess : Reg32.ecx ≠ Reg32.eax ∧ Reg8.al ≠ Reg8.ah ∧ Reg32.ebx ≠ Reg8.ah.parent := by decide

/-- The last access inside and the first outside, of each width. -/
theorem witness_AccessBounds :
    (0xFFFFF#32).toNat + 1 ≤ State.reset.mem.size ∧ (0xFFFFC#32).toNat + 4 ≤ State.reset.mem.size ∧
    State.reset.mem.size < (0x100000#32).toNat + 1 ∧ State.reset.mem.size < (0xFFFFD#32).toNat + 4 := by decide

theorem witness_WriteThenRead : State.reset.mem.wf = true ∧ 0xFFFFF + 1 ≤ State.reset.mem.size ∧
    0xFFFFC + 4 ≤ State.reset.mem.size ∧ (0xFFFFB < 0xFFFFC ∨ 0xFFFFC + 4 ≤ 0xFFFFB) ∧
    (0xFFFFC + 4 < 0xFFFFC ∨ 0xFFFFC + 4 ≤ 0xFFFFC + 4) ∧ 0xFFFFE ≠ 0xFFFFF ∧ 3 < 4 := by decide

theorem witness_SubFlagsLaw : 1 ≠ 0 ∧ 1 ≠ 6 ∧ 1 ≠ 7 ∧ 1 ≠ 11 ∧ 31 ≠ 0 ∧ 31 ≠ 6 ∧ 31 ≠ 7 ∧ 31 ≠ 11 := by decide

/-- ESP at both ends of each range. -/
theorem witness_PushThenPop :
    ((withEsp 4).Inv ∧ 4 ≤ ((withEsp 4).reg .esp).toNat ∧ ((withEsp 4).reg .esp).toNat ≤ (withEsp 4).mem.size) ∧
    ((withEsp 0x100000).Inv ∧ 4 ≤ ((withEsp 0x100000).reg .esp).toNat ∧
      ((withEsp 0x100000).reg .esp).toNat ≤ (withEsp 0x100000).mem.size) ∧
    (((withEsp 3).reg .esp).toNat < 4 ∧ ¬ ((withEsp 3).reg .esp = 0#32 ∧ (withEsp 3).mem.size = 2 ^ 32)) ∧
    ((withEsp 0x100001).mem.size < ((withEsp 0x100001).reg .esp).toNat ∧
      ¬ ((withEsp 0x100001).reg .esp = 0#32 ∧ (withEsp 0x100001).mem.size = 2 ^ 32)) ∧
    (State.Inv { withEsp 0 with mem := { size := 2 ^ 32, cells := [] } } ∧ (withEsp 0).reg .esp = 0#32) := by decide

theorem witness_PushR32Rule : (withEsp 4).mem.fits ((withEsp 4).reg .esp - 4#32) 4 = true ∧
    ¬ (withEsp 3).mem.fits ((withEsp 3).reg .esp - 4#32) 4 = true := by decide

theorem witness_PopR32Rule : (withEsp 0xFFFFC).mem.fits ((withEsp 0xFFFFC).reg .esp) 4 = true ∧
    ¬ (withEsp 0xFFFFD).mem.fits ((withEsp 0xFFFFD).reg .esp) 4 = true := by decide

/-- RET has the same hypotheses as POP, LEAVE the same on EBP. -/
theorem witness_RetRule : (withEsp 0xFFFFC).mem.fits ((withEsp 0xFFFFC).reg .esp) 4 = true ∧
    ¬ (withEsp 0xFFFFD).mem.fits ((withEsp 0xFFFFD).reg .esp) 4 = true := by decide

theorem witness_LeaveRule : State.reset.mem.fits (State.reset.reg .ebp) 4 = true ∧
    ¬ (State.reset.setReg .ebp 0xFFFFE).mem.fits ((State.reset.setReg .ebp 0xFFFFE).reg .ebp) 4 = true := by decide

/-- A four-byte field after the opcode: MOV r32, imm32; CMP EAX, imm32; JMP rel32. -/
theorem witness_MovR32Imm32Rule : State.reset.mem.fits (0xFFFFB#32 + 1#32) 4 = true ∧
    ¬ State.reset.mem.fits (0xFFFFC#32 + 1#32) 4 = true := by decide

theorem witness_CmpEaxImm32Rule : State.reset.mem.fits (State.reset.pc + 1#32) 4 = true ∧
    ¬ State.reset.mem.fits (0xFFFFC#32 + 1#32) 4 = true := by decide

/-- A one-byte field after the opcode: MOV r8, imm8; CMP AL, imm8; JMP rel8. -/
theorem witness_MovR8Imm8Rule : State.reset.mem.fits (0xFFFFE#32 + 1#32) 1 = true ∧
    ¬ lastByte.mem.fits (lastByte.pc + 1#32) 1 = true := by decide

theorem witness_CmpAlImm8Rule : State.reset.mem.fits (State.reset.pc + 1#32) 1 = true ∧
    exec (.cmpAlImm8 1) State.reset = .next { State.reset with flags := 0x81, pc := 0x7C02 } ∧
    ¬ lastByte.mem.fits (lastByte.pc + 1#32) 1 = true := ⟨rfl, rfl, by decide⟩

theorem witness_JumpRule : State.reset.mem.fits (State.reset.pc + 1#32) 1 = true ∧
    ¬ lastByte.mem.fits (lastByte.pc + 1#32) 1 = true ∧ State.reset.mem.fits (State.reset.pc + 1#32) 4 = true ∧
    ¬ lastByte.mem.fits (lastByte.pc + 1#32) 4 = true := by decide

theorem witness_PushImmediateRule :
    (∀ n : Fin 5, firstFault [State.reset.outside (State.reset.pc + 1#32) n .fetch,
      State.reset.outside (State.reset.reg .esp - 4#32) 4 .write] = none) ∧
    firstFault [lastByte.outside (lastByte.pc + 1#32) 1 .fetch, lastByte.outside (lastByte.reg .esp - 4#32) 4 .write]
      = some (.outOfBounds 0x100000 1 .fetch) ∧
    firstFault [(withEsp 3).outside ((withEsp 3).pc + 1#32) 4 .fetch,
      (withEsp 3).outside ((withEsp 3).reg .esp - 4#32) 4 .write] = some (.outOfBounds 0xFFFFFFFF 4 .write) := by decide

theorem witness_CallRule :
    firstFault [State.reset.outside (State.reset.pc + 1#32) 4 .fetch,
      State.reset.outside (State.reset.reg .esp - 4#32) 4 .write] = none ∧
    firstFault [lastByte.outside (lastByte.pc + 1#32) 4 .fetch, lastByte.outside (lastByte.reg .esp - 4#32) 4 .write]
      = some (.outOfBounds 0x100000 4 .fetch) ∧
    firstFault [(withEsp 0).outside ((withEsp 0).pc + 1#32) 4 .fetch,
      (withEsp 0).outside ((withEsp 0).reg .esp - 4#32) 4 .write] = some (.outOfBounds 0xFFFFFFFC 4 .write) := by decide

theorem witness_AddRm32Imm8Rule :
    let faults (s : State) (rm : Rm Reg32) := firstFault (modRMFaults s rm ++ sibFault 0#3 rm ++
      accessFault s rm 4 .read ++ [s.outside (s.pc + BitVec.ofNat 32 (1 + rm.size)) 1 .fetch])
    faults State.reset (.reg .esp) = none ∧ faults State.reset (.mem (.abs 0xFFFFC)) = none ∧
    faults lastByte (.reg .esp) = some (.outOfBounds 0x100000 1 .fetch) ∧
    faults State.reset (.mem (.sib .mod0 0x24)) = some (.unimplementedAddressing 0x04) ∧
    faults State.reset (.mem (.abs 0xFFFFD)) = some (.outOfBounds 0xFFFFD 4 .read) ∧
    faults { State.reset with pc := 0xFFFFE } (.reg .esp) = some (.outOfBounds 0x100000 1 .fetch) := by decide

theorem witness_SubRm32Imm8Rule :
    let faults (s : State) (rm : Rm Reg32) := firstFault (modRMFaults s rm ++ sibFault 5#3 rm ++
      accessFault s rm 4 .read ++ [s.outside (s.pc + BitVec.ofNat 32 (1 + rm.size)) 1 .fetch])
    faults State.reset (.reg .esp) = none ∧ faults State.reset (.mem (.abs 0xFFFFC)) = none ∧
    faults lastByte (.reg .esp) = some (.outOfBounds 0x100000 1 .fetch) ∧
    faults State.reset (.mem (.sib .mod0 0x24)) = some (.unimplementedAddressing 0x2C) ∧
    faults State.reset (.mem (.abs 0xFFFFD)) = some (.outOfBounds 0xFFFFD 4 .read) ∧
    faults { State.reset with pc := 0xFFFFE } (.reg .esp) = some (.outOfBounds 0x100000 1 .fetch) := by decide

theorem witness_CmpRm32Imm8Rule :
    let faults (s : State) (rm : Rm Reg32) := firstFault (modRMFaults s rm ++ sibFault 7#3 rm ++
      accessFault s rm 4 .read ++ [s.outside (s.pc + BitVec.ofNat 32 (1 + rm.size)) 1 .fetch])
    faults State.reset (.reg .esp) = none ∧ faults State.reset (.mem (.abs 0xFFFFC)) = none ∧
    faults lastByte (.reg .esp) = some (.outOfBounds 0x100000 1 .fetch) ∧
    faults State.reset (.mem (.sib .mod0 0x24)) = some (.unimplementedAddressing 0x3C) ∧
    faults State.reset (.mem (.abs 0xFFFFD)) = some (.outOfBounds 0xFFFFD 4 .read) ∧
    faults { State.reset with pc := 0xFFFFE } (.reg .esp) = some (.outOfBounds 0x100000 1 .fetch) := by decide

theorem witness_IncRm32Rule :
    let faults (s : State) (rm : Rm Reg32) :=
      firstFault (modRMFaults s rm ++ sibFault 0#3 rm ++ accessFault s rm 4 .read)
    faults State.reset (.reg .eax) = none ∧ faults State.reset (.mem (.abs 0xFFFFC)) = none ∧
    faults lastByte (.reg .eax) = some (.outOfBounds 0x100000 1 .fetch) ∧
    faults State.reset (.mem (.sib .mod0 0x24)) = some (.unimplementedAddressing 0x04) ∧
    faults State.reset (.mem (.abs 0xFFFFD)) = some (.outOfBounds 0xFFFFD 4 .read) := by decide

theorem witness_MovRm32Imm32Rule :
    let faults (s : State) (rm : Rm Reg32) := firstFault (modRMFaults s rm ++ sibFault 0#3 rm ++
      [s.outside (s.pc + BitVec.ofNat 32 (1 + rm.size)) 4 .fetch] ++ accessFault s rm 4 .write)
    faults State.reset (.reg .eax) = none ∧ faults State.reset (.mem (.abs 0xFFFFC)) = none ∧
    faults lastByte (.reg .eax) = some (.outOfBounds 0x100000 1 .fetch) ∧
    faults State.reset (.mem (.sib .mod2 0x24)) = some (.unimplementedAddressing 0x84) ∧
    faults { State.reset with pc := 0xFFFFB } (.reg .eax) = some (.outOfBounds 0xFFFFD 4 .fetch) ∧
    faults State.reset (.mem (.abs 0xFFFFD)) = some (.outOfBounds 0xFFFFD 4 .write) := by decide

theorem witness_AddRm32R32Rule :
    let faults (s : State) (rm : Rm Reg32) :=
      firstFault (modRMFaults s rm ++ sibFault (Reg32.toBits .ebx) rm ++ accessFault s rm 4 .read)
    faults State.reset (.reg .ebx) = none ∧ faults State.reset (.mem (.abs 0xFFFFC)) = none ∧
    faults lastByte (.reg .ebx) = some (.outOfBounds 0x100000 1 .fetch) ∧
    faults State.reset (.mem (.sib .mod0 0x24)) = some (.unimplementedAddressing 0x1C) ∧
    faults State.reset (.mem (.abs 0xFFFFD)) = some (.outOfBounds 0xFFFFD 4 .read) := by decide

theorem witness_CmpR32Rm32Rule :
    let faults (s : State) (rm : Rm Reg32) :=
      firstFault (modRMFaults s rm ++ sibFault (Reg32.toBits .ebx) rm ++ accessFault s rm 4 .read)
    faults State.reset (.reg .ebx) = none ∧ faults State.reset (.mem (.abs 0xFFFFC)) = none ∧
    faults lastByte (.reg .ebx) = some (.outOfBounds 0x100000 1 .fetch) ∧
    faults State.reset (.mem (.sib .mod0 0x24)) = some (.unimplementedAddressing 0x1C) ∧
    faults State.reset (.mem (.abs 0xFFFFD)) = some (.outOfBounds 0xFFFFD 4 .read) := by decide

theorem witness_MovRm8R8Rule :
    let faults (s : State) (rm : Rm Reg8) :=
      firstFault (modRMFaults s rm ++ sibFault (Reg8.toBits .bl) rm ++ accessFault s rm 1 .write)
    faults State.reset (.reg .bl) = none ∧ faults State.reset (.mem (.abs 0xFFFFF)) = none ∧
    faults lastByte (.reg .bl) = some (.outOfBounds 0x100000 1 .fetch) ∧
    faults State.reset (.mem (.sib .mod0 0x24)) = some (.unimplementedAddressing 0x1C) ∧
    faults State.reset (.mem (.abs 0x100000)) = some (.outOfBounds 0x100000 1 .write) := by decide

theorem witness_MovRm32R32Rule :
    let faults (s : State) (rm : Rm Reg32) :=
      firstFault (modRMFaults s rm ++ sibFault (Reg32.toBits .ebx) rm ++ accessFault s rm 4 .write)
    faults State.reset (.reg .ebx) = none ∧ faults State.reset (.mem (.abs 0xFFFFC)) = none ∧
    faults lastByte (.reg .ebx) = some (.outOfBounds 0x100000 1 .fetch) ∧
    faults State.reset (.mem (.sib .mod0 0x24)) = some (.unimplementedAddressing 0x1C) ∧
    faults State.reset (.mem (.abs 0xFFFFD)) = some (.outOfBounds 0xFFFFD 4 .write) := by decide

theorem witness_MovR8Rm8Rule :
    let faults (s : State) (rm : Rm Reg8) :=
      firstFault (modRMFaults s rm ++ sibFault (Reg8.toBits .bl) rm ++ accessFault s rm 1 .read)
    faults State.reset (.reg .bl) = none ∧ faults State.reset (.mem (.abs 0xFFFFF)) = none ∧
    faults lastByte (.reg .bl) = some (.outOfBounds 0x100000 1 .fetch) ∧
    faults State.reset (.mem (.sib .mod0 0x24)) = some (.unimplementedAddressing 0x1C) ∧
    faults State.reset (.mem (.abs 0x100000)) = some (.outOfBounds 0x100000 1 .read) := by decide

theorem witness_MovR32Rm32Rule :
    let faults (s : State) (rm : Rm Reg32) :=
      firstFault (modRMFaults s rm ++ sibFault (Reg32.toBits .ebx) rm ++ accessFault s rm 4 .read)
    faults State.reset (.reg .ebx) = none ∧ faults State.reset (.mem (.abs 0xFFFFC)) = none ∧
    faults lastByte (.reg .ebx) = some (.outOfBounds 0x100000 1 .fetch) ∧
    faults State.reset (.mem (.sib .mod0 0x24)) = some (.unimplementedAddressing 0x1C) ∧
    faults State.reset (.mem (.abs 0xFFFFD)) = some (.outOfBounds 0xFFFFD 4 .read) := by decide

/-- Group bytes whose displacement lies inside memory, and one whose displacement lies past its end. -/
theorem witness_UnassignedSubOpcodesStop :
    let bytes (a : Word) (bs : List Byte) : State := { bytesAt a bs with pc := a }
    let meets (s : State) := s.status = .running ∧ s.pc.toNat < s.mem.size ∧
      unassignedSubOpcode (s.at s.pc) ((s.at (s.pc + 1#32)).extractLsb' 3 3) = true ∧ s.mem.fits (s.pc + 1#32) 1 = true
    (meets (bytes 0xFFFFE [0x83, 0xC8]) ∧ tailLength 0xC8 = 0) ∧
    (meets (bytes 0x7C00 [0xC7, 0x48, 0x00]) ∧ tailLength 0x48 = 1 ∧ State.reset.mem.fits (0x7C02#32) 1 = true) ∧
    (meets (bytes 0xFFFFE [0xC7, 0x48]) ∧ tailLength 0x48 ≠ 0 ∧ ¬ State.reset.mem.fits (0x100000#32) 1 = true) ∧
    (meets (bytes 0xFFFFB [0xFF, 0xB0]) ∧ tailLength 0xB0 = 4 ∧ ¬ State.reset.mem.fits (0xFFFFD#32) 4 = true) := by
  decide

/-- Each jump is in the list with its condition false and true. -/
theorem witness_ConditionalJumpRule :
    let conds (f : Word) := [f.getLsbD 11, !f.getLsbD 11, f.getLsbD 0, !f.getLsbD 0, f.getLsbD 6, !f.getLsbD 6,
      f.getLsbD 7, !f.getLsbD 7, f.getLsbD 7 != f.getLsbD 11, f.getLsbD 6 || (f.getLsbD 7 != f.getLsbD 11)]
    conds 0x041 = [false, true, true, false, true, false, false, true, false, true] ∧
    conds 0x800 = [true, false, false, true, false, true, false, true, true, true] ∧
    conds 0x880 = [true, false, false, true, false, true, true, false, false, false] ∧
    State.reset.mem.fits (State.reset.pc + 1#32) 1 = true ∧ ¬ lastByte.mem.fits (lastByte.pc + 1#32) 1 = true := by
  decide

theorem witness_InRule : State.portAnswer { State.reset with portAnswers := [0x61] }
    (State.reset.regs.edx.extractLsb' 0 16) = 0x61 := by decide

/-- The frames and the sequential `pc`: an instruction that completes, with a register it does not write, bytes it does
not store to, and one that stores nothing. -/
theorem witness_RegisterFrame : exec (.pushR32 .eax) State.reset = .next
      { State.reset with regs := { State.reset.regs with esp := 0x7BFC }, pc := 0x7C01 } ∧
    (Instr.pushR32 .eax).writesReg .ebx = false := ⟨rfl, rfl⟩

theorem witness_MemoryFrame : (∃ t, exec (.pushR32 .ebx) (State.reset.setReg .ebx 7) = .next t) ∧
    (Instr.pushR32 .ebx).storesAt (State.reset.setReg .ebx 7) = some (0x7BFC, 4) ∧
    (0x7BFB < (0x7BFC#32).toNat ∨ (0x7BFC#32).toNat + 4 ≤ 0x7BFB) ∧
    ((0x7C00 : Nat) < (0x7BFC#32).toNat ∨ (0x7BFC#32).toNat + 4 ≤ 0x7C00) ∧
    (Instr.incR32 .ebx).storesAt State.reset = none ∧ (∃ t, exec (.incR32 .ebx) State.reset = .next t) :=
  ⟨⟨_, rfl⟩, rfl, by decide, by decide, rfl, ⟨_, rfl⟩⟩

theorem witness_FlagsFrame : exec (.incR32 .eax) State.reset = .next
      { State.reset with regs := { State.reset.regs with eax := 1 }, pc := 0x7C01 } ∧
    (Instr.incR32 .eax).writesFlags = false ∧ 1 ≠ 0 ∧ 1 ≠ 6 ∧ 1 ≠ 7 ∧ 1 ≠ 11 := ⟨rfl, rfl, by decide⟩

theorem witness_PortFrame : (∃ t, exec .outDxAl State.reset = .next t) ∧ Instr.outDxAl.callsPort = true ∧
    (∃ t, exec .leave State.reset = .next t) ∧ Instr.leave.callsPort = false :=
  ⟨⟨_, rfl⟩, rfl, ⟨_, rfl⟩, rfl⟩

theorem witness_SequentialPc : exec .leave State.reset = .next
      { State.reset with regs := { State.reset.regs with esp := 4 }, pc := 0x7C01 } ∧
    Instr.leave.transfersControl = false := ⟨rfl, rfl⟩

theorem witness_PcOutOfRangeStops : State.status { State.reset with pc := 0x100000 } = .running ∧
    State.reset.mem.size ≤ (0x100000#32).toNat := by decide

/-- A jump that lands on 0 and one that does not. -/
theorem witness_PcZeroHalts :
    let zero := image [0xE9, 0xFB, 0x83, 0xFF, 0xFF]
    let other := image [0xEB, 0x05]
    (zero.status = .running ∧ zero.pc.toNat < zero.mem.size ∧
      decode zero.window = .ok (.jmpRel32 0xFFFF83FB, [0, 0, 0, 0, 0]) ∧
      exec (.jmpRel32 0xFFFF83FB) zero = .next { zero with pc := 0 }) ∧
    (other.status = .running ∧ other.pc.toNat < other.mem.size ∧
      decode other.window = .ok (.jmpRel8 5, [0, 0, 0, 0, 0, 0, 0, 0]) ∧
      exec (.jmpRel8 5) other = .next { other with pc := 0x7C07 }) :=
  ⟨⟨rfl, by decide, rfl, rfl⟩, rfl, by decide, rfl, rfl⟩

theorem witness_StoppedCoreStays : State.status { State.reset with status := .haltNormal } ≠ .running ∧
    State.status { State.reset with status := .stopPcRange 0x7C00 } ≠ .running ∧
    State.status { State.reset with status := .fatal (.unimplementedOpcode 0) } ≠ .running := by decide

theorem witness_EveryCycleHasOneOutcome : compareImage.status = .running ∧
    compareImage.pc.toNat < compareImage.mem.size ∧ State.reset.status = .running ∧
    State.reset.pc.toNat < State.reset.mem.size := by decide

theorem witness_FatalCommitsNothing : State.reset.status = .running ∧
    step State.reset = .next { State.reset with status := .fatal (.unimplementedOpcode 0) } := ⟨rfl, rfl⟩

theorem witness_StepKeepsInvariant : (image [0x50]).Inv ∧ ∃ t, step (image [0x50]) = .next t :=
  ⟨by decide, ⟨_, rfl⟩⟩

theorem witness_StatusTellsTheTruth : State.reset.StatusTrue ∧
    step State.reset = .next { State.reset with status := .fatal (.unimplementedOpcode 0) } := ⟨trivial, rfl⟩

theorem witness_ReservedFlagsAndEventsPersist : ∃ t, step (image [0x3C, 0x41]) = .next t := ⟨_, rfl⟩

end Sys2Proof.Tests
end

section
/-! The start sequence: what placing an image leaves in memory (70_reset_and_hazards R303), and the first step of a core
that starts with `pc` outside memory (R304). -/

namespace Sys2Proof.Machine

/-! ### Bytes placed in memory -/

theorem Memory.placeBytes_cons (m : Memory) (a : Word) (b : Byte) (bs : List Byte) :
    m.placeBytes a (b :: bs) = (if a.toNat < m.size then m.setByte a.toNat b else m).placeBytes (a + 1#32) bs := rfl

/-- The frame of placing bytes, where the addresses do not pass 2^32; the last of them may be 2^32 - 1, after which the
address wraps with nothing left to place. -/
theorem Memory.byteAt_placeBytes_outside (m : Memory) {a : Word} {bs : List Byte} (hspan : a.toNat + bs.length ≤ 2 ^ 32)
    {i : Nat} (hi : i < a.toNat ∨ a.toNat + bs.length ≤ i) : (m.placeBytes a bs).byteAt i = m.byteAt i := by
  induction bs generalizing m a with
  | nil => rfl
  | cons b bs ih =>
    have hnext : (a + 1#32).toNat = (a.toNat + 1) % 2 ^ 32 := BitVec.toNat_add a 1#32
    rw [List.length_cons] at hspan hi
    rw [placeBytes_cons, ih _ (by omega) (by omega)]
    split
    · exact byteAt_setByte_ne m b (by omega)
    · rfl

/-- Placed bytes read back. -/
theorem Memory.byteAt_placeBytes {m : Memory} (hw : m.wf = true) (hsize : m.size ≤ 2 ^ 32) {a : Word} {bs : List Byte}
    (hfit : a.toNat + bs.length ≤ m.size) {k : Nat} (hk : k < bs.length) :
    (m.placeBytes a bs).byteAt (a.toNat + k) = bs[k] := by
  induction bs generalizing m a k with
  | nil => exact absurd hk (Nat.not_lt_zero k)
  | cons b bs ih =>
    have hnext : (a + 1#32).toNat = (a.toNat + 1) % 2 ^ 32 := BitVec.toNat_add a 1#32
    rw [List.length_cons] at hfit hk
    have hin : a.toNat < m.size := by omega
    rw [placeBytes_cons, if_pos hin]
    cases k with
    | zero =>
      rw [Nat.add_zero, byteAt_placeBytes_outside _ (by omega) (by omega)]
      exact byteAt_setByte_self hw a.toNat b
    | succ k =>
      rw [show a.toNat + (k + 1) = (a + 1#32).toNat + k by omega]
      exact ih (setByte_wf hw hin b) hsize (by rw [setByte_size]; omega) (by omega)

/-! ### The start and the first cycle -/

theorem State.start_of_not_admits {p : Params} {image : List Byte} (h : ¬ p.admits image) : State.start p image = none :=
  if_neg fun hstart => h hstart.2

/-- An image that is not empty has no place where `LOAD_ADDR` is not below `MEM_SIZE` (R303). -/
theorem not_admits_of_outside {p : Params} (hout : p.memSize ≤ p.loadAddr.toNat) {image : List Byte} (h : image ≠ []) :
    ¬ p.admits image := by
  have hpos : 0 < image.length := List.length_pos_of_ne_nil h
  rintro (hnil | hfit)
  · exact h hnil
  · omega

/-- Step 1 of the cycle (R120, R278). -/
theorem step_of_pc_outside {s : State} (hrun : s.status = .running) (hpc : s.mem.size ≤ s.pc.toNat) :
    step s = .next s.stopOutOfRange := by
  simp [step, hrun, cycle, hpc]

/-- Settles O10: the image is placed in a memory of zeros, so its bytes read back and every other byte is still 0. -/
theorem startSequence : Obligations.StartSequence := by
  intro p image hlegal hadmits
  have hspan : p.loadAddr.toNat + image.length ≤ 2 ^ 32 := by
    rcases hadmits with rfl | hfit
    · exact p.loadAddr.isLt.le
    · exact hfit.trans hlegal.2
  have hsize := Memory.placeBytes_size { size := p.memSize, cells := [] } p.loadAddr image
  refine ⟨_, if_pos ⟨hlegal, hadmits⟩, ⟨Memory.placeBytes_wf rfl _ _, ?_, ?_⟩, rfl, rfl, rfl, rfl, rfl, rfl, rfl, rfl, rfl,
    rfl, rfl, rfl, hsize, fun k hk => ?_, fun a ha => Memory.byteAt_placeBytes_outside _ hspan ha⟩
  · exact hlegal.1.trans_eq hsize.symm
  · exact hsize.trans_le hlegal.2
  · have hfit := hadmits.resolve_left (List.ne_nil_of_length_pos (Nat.zero_lt_of_lt hk))
    exact Memory.byteAt_placeBytes rfl hlegal.2 hfit hk

/-- Settles O59: the started core has `pc` at `LOAD_ADDR`, outside memory, and only the empty image can be placed. -/
theorem startOutsideMemory : Obligations.StartOutsideMemory := by
  intro p hlegal hout
  exact ⟨⟨_, if_pos ⟨hlegal, .inl rfl⟩, step_of_pc_outside rfl hout⟩,
    fun _ himage => State.start_of_not_admits (not_admits_of_outside hout himage)⟩

end Sys2Proof.Machine
end

section
/-! The state: what the decoder reads; that the conditions raised are true of the state; what each instruction's effect
does to registers, flags, the port record, `pc` and memory; what a step can do; the invariants and the frames. -/

namespace Sys2Proof

/-! ### What the decoder read (30_encoding R90, R102, R104) -/

theorem withByte_eq_error {α : Type} {bs : List Byte} {k : Byte → List Byte → Except Reject α} {r : Reject}
    (h : withByte bs k = .error r) : r = .truncated ∨ ∃ b rest, bs = b :: rest ∧ k b rest = .error r := by
  match bs with
  | b :: rest => exact .inr ⟨b, rest, rfl, h⟩
  | [] => exact .inl (Except.error.inj h).symm

theorem withWord_eq_error {α : Type} {bs : List Byte} {k : Word → List Byte → Except Reject α} {r : Reject}
    (h : withWord bs k = .error r) : r = .truncated ∨ ∃ w rest, bs = bytesOfWord w ++ rest ∧ k w rest = .error r := by
  rcases withWord_cases bs with ⟨w, rest, rfl⟩ | ⟨-, hshort⟩
  · exact .inr ⟨w, rest, rfl, by simpa using h⟩
  · exact .inl (Except.error.inj ((hshort k).symm.trans h)).symm

theorem withModRM_eq_error {α : Type} {bs : List Byte} {k : BitVec 3 → Rm (BitVec 3) → List Byte → Except Reject α}
    {r : Reject} (h : withModRM bs k = .error r) :
    r = .truncated ∨ ∃ reg rm rest, bs = encodeModRM reg rm ++ rest ∧ k reg rm rest = .error r := by
  rcases withModRM_cases bs with ⟨reg, rm, rest, hw, rfl⟩ | ⟨-, hshort⟩
  · exact .inr ⟨reg, rm, rest, rfl, by rwa [withModRM_encode hw] at h⟩
  · exact .inl (Except.error.inj ((hshort k).symm.trans h)).symm

/-- Group `83` reads the immediate of the instruction its sub-opcode names, or the sub-opcode is unassigned (R102). -/
theorem decodeGroup83_cases (ext : BitVec 3) (rm : Rm (BitVec 3)) (bs : List Byte) :
    (∃ mk : Byte → Instr, decodeGroup83 ext rm bs = withByte bs (fun imm rest => .ok (mk imm, rest)) ∧
      ∀ imm, (mk imm).wellFormed = rm.wellFormed ∧ encode (mk imm) = 0x83#8 :: encodeModRM ext rm ++ [imm]) ∨
    Machine.unassignedSubOpcode 0x83#8 ext = true ∧ decodeGroup83 ext rm bs = .error (.subOpcode 0x83#8 ext rm) := by
  unfold decodeGroup83
  split
  · rename_i h0
    exact .inl ⟨.addRm32Imm8 _, rfl, fun _ => by simp [Instr.wellFormed, encode, encodeRm32, h0]⟩
  · split
    · rename_i h5
      exact .inl ⟨.subRm32Imm8 _, rfl, fun _ => by simp [Instr.wellFormed, encode, encodeRm32, h5]⟩
    · split
      · rename_i h7
        exact .inl ⟨.cmpRm32Imm8 _, rfl, fun _ => by simp [Instr.wellFormed, encode, encodeRm32, h7]⟩
      · rename_i h0 h5 h7
        exact .inr ⟨by simp [Machine.unassignedSubOpcode, h0, h5, h7], rfl⟩

/-- What a handler reads is the encoding of the instruction it answers, well formed (R104). -/
theorem decodeOperands_eq_ok {h : Handler} {bs : List Byte} {i : Instr} {rest : List Byte}
    (e : decodeOperands h bs = .ok (i, rest)) : i.wellFormed = true ∧ encode i ++ rest = h.opcode :: bs := by
  cases h with
  | incR32 | pushR32 | popR32 | ret | leave | inAlDx | outDxAl =>
    cases e
    simp [Instr.wellFormed, encode, Handler.opcode]
  | cmpAlImm8 | pushImm8 | jo | jno | jc | jnc | jz | jnz | js | jns | jl | jle | movR8Imm8 | jmpRel8 =>
    rw [decodeOperands] at e
    obtain ⟨b, tl, rfl, hk⟩ := withByte_eq_ok e
    cases hk
    simp [Instr.wellFormed, encode, Handler.opcode]
  | cmpEaxImm32 | pushImm32 | movR32Imm32 | callRel32 | jmpRel32 =>
    rw [decodeOperands] at e
    obtain ⟨w, tl, rfl, hk⟩ := withWord_eq_ok e
    cases hk
    simp [Instr.wellFormed, encode, Handler.opcode]
  | addRm32R32 | cmpR32Rm32 | movRm8R8 | movRm32R32 | movR8Rm8 | movR32Rm32 =>
    rw [decodeOperands] at e
    obtain ⟨reg, rm, tl, hw, rfl, hk⟩ := withModRM_eq_ok e
    cases hk
    simp [Instr.wellFormed, hw, encode, encodeRm32, encodeRm8, Handler.opcode]
  | group83 =>
    rw [decodeOperands] at e
    obtain ⟨ext, rm, tl, hw, rfl, hk⟩ := withModRM_eq_ok e
    rcases decodeGroup83_cases ext rm tl with ⟨mk, hmk, henc⟩ | ⟨-, herr⟩
    · rw [hmk] at hk
      obtain ⟨imm, tl, rfl, hk⟩ := withByte_eq_ok hk
      cases hk
      simp [henc, hw, Handler.opcode]
    · cases herr.symm.trans hk
  | groupFF =>
    rw [decodeOperands] at e
    obtain ⟨ext, rm, tl, hw, rfl, hk⟩ := withModRM_eq_ok e
    by_cases hext : ext = 0#3
    · simp only [decodeGroupFF, hext, if_true] at hk
      cases hk
      simp [Instr.wellFormed, hw, encode, encodeRm32, Handler.opcode, hext]
    · simp [decodeGroupFF, hext] at hk
  | groupC7 =>
    rw [decodeOperands] at e
    obtain ⟨ext, rm, tl, hw, rfl, hk⟩ := withModRM_eq_ok e
    by_cases hext : ext = 0#3
    · simp only [decodeGroupC7, hext, if_true] at hk
      obtain ⟨w, tl, rfl, hk⟩ := withWord_eq_ok hk
      cases hk
      simp [Instr.wellFormed, hw, encode, encodeRm32, Handler.opcode, hext]
    · simp [decodeGroupC7, hext] at hk

/-- A handler refuses its operands only for want of bytes or for a sub-opcode its group leaves unassigned (R102). -/
theorem decodeOperands_eq_error {h : Handler} {bs : List Byte} {r : Reject} (e : decodeOperands h bs = .error r) :
    r = .truncated ∨ ∃ ext rm rest, bs = encodeModRM ext rm ++ rest ∧ r = .subOpcode h.opcode ext rm ∧
      Machine.unassignedSubOpcode h.opcode ext = true := by
  cases h with
  | incR32 | pushR32 | popR32 | ret | leave | inAlDx | outDxAl => cases e
  | cmpAlImm8 | pushImm8 | jo | jno | jc | jnc | jz | jnz | js | jns | jl | jle | movR8Imm8 | jmpRel8 =>
    rw [decodeOperands] at e
    exact .inl ((withByte_eq_error e).resolve_right (by simp))
  | cmpEaxImm32 | pushImm32 | movR32Imm32 | callRel32 | jmpRel32 =>
    rw [decodeOperands] at e
    exact .inl ((withWord_eq_error e).resolve_right (by simp))
  | addRm32R32 | cmpR32Rm32 | movRm8R8 | movRm32R32 | movR8Rm8 | movR32Rm32 =>
    rw [decodeOperands] at e
    exact .inl ((withModRM_eq_error e).resolve_right (by simp))
  | group83 =>
    rw [decodeOperands] at e
    rcases withModRM_eq_error e with hr | ⟨ext, rm, rest, hbs, hk⟩
    · exact .inl hr
    rcases decodeGroup83_cases ext rm rest with ⟨mk, hmk, -⟩ | ⟨hun, herr⟩
    · exact .inl ((withByte_eq_error (hmk.symm.trans hk)).resolve_right (by simp))
    · exact .inr ⟨ext, rm, rest, hbs, Except.error.inj (hk.symm.trans herr), hun⟩
  | groupFF =>
    rw [decodeOperands] at e
    rcases withModRM_eq_error e with hr | ⟨ext, rm, rest, hbs, hk⟩
    · exact .inl hr
    by_cases hext : ext = 0#3
    · simp [decodeGroupFF, hext] at hk
    · simp only [decodeGroupFF, hext, if_false] at hk
      exact .inr ⟨ext, rm, rest, hbs, (Except.error.inj hk).symm,
        by simp [Machine.unassignedSubOpcode, Handler.opcode, hext]⟩
  | groupC7 =>
    rw [decodeOperands] at e
    rcases withModRM_eq_error e with hr | ⟨ext, rm, rest, hbs, hk⟩
    · exact .inl hr
    by_cases hext : ext = 0#3
    · simp only [decodeGroupC7, hext, if_true] at hk
      exact .inl ((withWord_eq_error hk).resolve_right (by simp))
    · simp only [decodeGroupC7, hext, if_false] at hk
      exact .inr ⟨ext, rm, rest, hbs, (Except.error.inj hk).symm,
        by simp [Machine.unassignedSubOpcode, Handler.opcode, hext]⟩

/-- Every byte string that decodes is the encoding of its instruction and the bytes after it (R104). -/
theorem encode_of_decode {w : List Byte} {i : Instr} {rest : List Byte} (e : decode w = .ok (i, rest)) :
    i.wellFormed = true ∧ encode i ++ rest = w := by
  obtain ⟨op, bs, rfl, hk⟩ := withByte_eq_ok e
  split at hk
  · rename_i h hd
    rw [dispatch_eq_some hd]
    exact decodeOperands_eq_ok hk
  · cases hk

/-- What a byte string that does not decode starts with: nothing whole, an unmapped opcode byte, or a group opcode whose
sub-opcode is unassigned (R102, R104). -/
theorem decode_eq_error {w : List Byte} {r : Reject} (e : decode w = .error r) :
    r = .truncated ∨ (∃ op rest, w = op :: rest ∧ r = .opcode op ∧ dispatch op = none) ∨
    ∃ op ext rm rest, w = op :: (encodeModRM ext rm ++ rest) ∧ r = .subOpcode op ext rm ∧
      Machine.unassignedSubOpcode op ext = true := by
  rcases withByte_eq_error e with hr | ⟨op, bs, rfl, hk⟩
  · exact .inl hr
  split at hk
  · rename_i h hd
    rcases decodeOperands_eq_error hk with hr | ⟨ext, rm, rest, rfl, hr, hun⟩
    · exact .inl hr
    · rw [← dispatch_eq_some hd] at hr hun
      exact .inr (.inr ⟨op, ext, rm, rest, rfl, hr, hun⟩)
  · rename_i hd
    exact .inr (.inl ⟨op, bs, rfl, (Except.error.inj hk).symm, hd⟩)

end Sys2Proof

namespace Sys2Proof.Machine

/-! ### Conditions are true of the state they are raised in (60_exceptions R271) -/

/-- A raise keeps the bytes and the `pc` a condition speaks of (R272). -/
theorem holds_raise (s : State) (c d : Condition) : d.Holds (s.raise c) ↔ d.Holds s := by cases d <;> rfl

/-- The fault a list reports, if any, is true of the state. -/
def Faults.Hold (s : State) (f : Faults) : Prop := ∀ c, firstFault f = some c → c.Holds s

theorem Faults.Hold.nil (s : State) : Faults.Hold s [] := fun _ h => nomatch h

theorem Faults.Hold.append {s : State} {f g : Faults} (hf : Faults.Hold s f) (hg : Faults.Hold s g) :
    Faults.Hold s (f ++ g) := by
  intro c h
  rw [firstFault_append, Option.or_eq_some_iff] at h
  rcases h with h | ⟨-, h⟩
  · exact hf c h
  · exact hg c h

/-- An access of 1 or 4 bytes that does not fit is out of bounds. -/
theorem Faults.Hold.cons_outside {s : State} {n : Nat} (hn : n = 1 ∨ n = 4) (a : Word) (kind : AccessKind) {f : Faults}
    (hf : Faults.Hold s f) : Faults.Hold s (s.outside a n kind :: f) := by
  intro c h
  cases hfit : s.mem.fits a n with
  | true => exact hf c (by simpa [State.outside, firstFault_cons, hfit] using h)
  | false =>
    obtain rfl : .outOfBounds a n kind = c := by simpa [State.outside, firstFault_cons, hfit] using h
    exact ⟨hn, Memory.fits_eq_false.mp hfit⟩

theorem modRMFaults_hold {ρ : Type} (s : State) (rm : Rm ρ) : Faults.Hold s (modRMFaults s rm) := by
  have one : ∀ a, Faults.Hold s [s.outside a 1 .fetch] := fun a => .cons_outside (.inl rfl) a _ (.nil s)
  have four : ∀ a, Faults.Hold s [s.outside a 4 .fetch] := fun a => .cons_outside (.inr rfl) a _ (.nil s)
  cases rm with
  | reg => exact one _
  | mem m => cases m with
    | ind => exact one _
    | abs | disp32 => exact (one _).append (four _)
    | disp8 | sib => exact (one _).append (one _)

theorem accessFault_hold {ρ : Type} (s : State) (rm : Rm ρ) {n : Nat} (hn : n = 1 ∨ n = 4) (kind : AccessKind) :
    Faults.Hold s (accessFault s rm n kind) := by
  cases rm with
  | reg => exact .nil s
  | mem m => cases m with
    | sib => exact .nil s
    | ind | abs | disp8 | disp32 => exact .cons_outside hn _ _ (.nil s)

/-- The faults of the addressing bytes, where the ModR/M byte of a SIB form is the one at `pc + 1`. -/
theorem addressing_hold {ρ : Type} {s : State} {reg : BitVec 3} {rm : Rm ρ}
    (hbyte : ∀ mode sib, rm = .mem (.sib mode sib) → modRMByte mode.toMod reg 4#3 = s.at (s.pc + 1#32)) :
    Faults.Hold s (modRMFaults s rm ++ sibFault reg rm) := by
  refine (modRMFaults_hold s rm).append ?_
  cases rm with
  | reg => exact .nil s
  | mem m => cases m with
    | ind | abs | disp8 | disp32 => exact .nil s
    | sib mode sib =>
      intro c h
      obtain rfl := Option.some.inj h
      refine ⟨hbyte mode sib rfl, ?_, modRMByte_rm _ _ _⟩
      rw [modRMByte_mod]
      cases mode <;> decide

/-- Every fault an instruction can raise is true of the state, where the second byte of its encoding is at `pc + 1`. -/
theorem faults_hold {i : Instr} {s : State} (hbyte : ∀ b, (encode i)[1]? = some b → b = s.at (s.pc + 1#32)) :
    Faults.Hold s (i.faults s) := by
  have one : ∀ a kind, Faults.Hold s [s.outside a 1 kind] := fun a kind => .cons_outside (.inl rfl) a kind (.nil s)
  have four : ∀ a kind, Faults.Hold s [s.outside a 4 kind] := fun a kind => .cons_outside (.inr rfl) a kind (.nil s)
  have jump : ∀ cond, Faults.Hold s (Instr.faults.jumpFaults s cond) := fun cond => by
    cases cond with
    | false => exact .nil s
    | true => exact one _ _
  cases i with
  | incR32 | inAlDx | outDxAl => exact .nil s
  | pushR32 | popR32 | ret | leave | movR32Imm32 | cmpEaxImm32 | jmpRel32 => exact four _ _
  | movR8Imm8 | cmpAlImm8 | jmpRel8 => exact one _ _
  | pushImm8 => exact (one _ _).append (four _ _)
  | pushImm32 | callRel32 => exact (four _ _).append (four _ _)
  | addRm32Imm8 rm | subRm32Imm8 rm | cmpRm32Imm8 rm =>
    exact ((addressing_hold fun _ _ h => hbyte _ (by rw [h]; rfl)).append (accessFault_hold s rm (.inr rfl) _)).append
      (one _ _)
  | movRm32Imm32 rm =>
    exact ((addressing_hold fun _ _ h => hbyte _ (by rw [h]; rfl)).append (four _ _)).append
      (accessFault_hold s rm (.inr rfl) _)
  | incRm32 rm | addRm32R32 rm | cmpR32Rm32 _ rm | movRm32R32 rm | movR32Rm32 _ rm =>
    exact (addressing_hold fun _ _ h => hbyte _ (by rw [h]; rfl)).append (accessFault_hold s rm (.inr rfl) _)
  | movRm8R8 rm | movR8Rm8 _ rm =>
    exact (addressing_hold fun _ _ h => hbyte _ (by rw [h]; rfl)).append (accessFault_hold s rm (.inl rfl) _)
  | jo | jno | jc | jnc | jz | jnz | js | jns | jl | jle => exact jump _

/-- The bytes of the window after its first are those of memory after `pc`. -/
theorem eq_at_of_window {s : State} {k : Nat} {b : Byte} (hk : k < maxLength) (h : s.window[k]? = some b) :
    b = s.at (s.pc + BitVec.ofNat 32 k) :=
  Option.some.inj (h.symm.trans (window_getElem? s hk))

theorem faults_hold_of_decode {i : Instr} {s : State} {rest : List Byte} (hd : decode s.window = .ok (i, rest)) :
    Faults.Hold s (i.faults s) := by
  refine faults_hold fun b hb => eq_at_of_window (k := 1) (by decide) ?_
  obtain ⟨hlt, -⟩ := List.getElem?_eq_some_iff.mp hb
  rw [← (encode_of_decode hd).2, List.getElem?_append_left hlt, hb]

theorem head_of_window {s : State} {op : Byte} {rest : List Byte} (hw : s.window = op :: rest) : op = s.at s.pc := by
  obtain ⟨tl, hcons, -⟩ := window_eq_cons s
  exact (List.cons.inj (hw.symm.trans hcons)).1

/-- The addressing bytes start with the ModR/M byte, which holds the reg field (30_encoding R88). -/
theorem encodeModRM_eq_cons (reg : BitVec 3) (rm : Rm (BitVec 3)) :
    ∃ b rest, encodeModRM reg rm = b :: rest ∧ b.extractLsb' 3 3 = reg := by
  cases rm with
  | reg => exact ⟨_, _, rfl, modRMByte_reg _ _ _⟩
  | mem m => cases m <;> exact ⟨_, _, rfl, modRMByte_reg _ _ _⟩

/-- A byte string that is no instruction raises a condition that is true of the state: ten bytes are never truncated,
and the addressing bytes of a group opcode are fetched first (R80, R104, 42_opcode_groups R180). -/
theorem rejected_holds {s t : State} {r : Reject} (hd : decode s.window = .error r) (h : s.rejected r = .next t) :
    ∃ c, c.Holds s ∧ t = s.raise c := by
  rcases decode_eq_error hd with rfl | ⟨op, rest, hw, rfl, hnone⟩ | ⟨op, ext, rm, rest, hw, rfl, hun⟩
  · exact absurd hd (decode_ne_truncated (length_window s).ge)
  · exact ⟨.unimplementedOpcode op, ⟨head_of_window hw, hnone⟩, (Host.Outcome.next.inj h).symm⟩
  · simp only [State.rejected, fetchModRM_orFault] at h
    cases hf : firstFault (modRMFaults s rm) with
    | some c =>
      rw [orFault_of_some hf] at h
      exact ⟨c, modRMFaults_hold s rm c hf, (Host.Outcome.next.inj h).symm⟩
    | none =>
      rw [orFault_of_none hf] at h
      obtain ⟨b, tl, hb, hext⟩ := encodeModRM_eq_cons ext rm
      have hbyte : b = s.at (s.pc + 1#32) := eq_at_of_window (k := 1) (by decide) (by rw [hw, hb]; rfl)
      exact ⟨.unimplementedSubOpcode op ext, ⟨head_of_window hw, by rw [← hbyte, hext], hun⟩,
        (Host.Outcome.next.inj h).symm⟩

end Sys2Proof.Machine

namespace Sys2Proof

/-- The index of an alias is that of its register, plus 4 for the high byte (R23). -/
theorem Reg8.toBits_eq (j : Reg8) : j.toBits = if j.high then j.parent.toBits + 4#3 else j.parent.toBits := by
  cases j <;> rfl

theorem Reg8.ext_parent_high {j k : Reg8} (hparent : k.parent = j.parent) (hhigh : k.high = j.high) : k = j := by
  rw [← ofBits_toBits k, toBits_eq, hparent, hhigh, ← toBits_eq, ofBits_toBits]

end Sys2Proof

namespace Sys2Proof.Machine

/-! ### The register file (10_state R22 to R24) -/

/-- A field under the mask is kept where nothing is merged into it. -/
theorem extractLsb'_merge_of_kept {w mask z : Word} {p n : Nat} (hmask : mask.extractLsb' p n = BitVec.allOnes n)
    (hz : z.extractLsb' p n = 0#n) : (w &&& mask ||| z).extractLsb' p n = w.extractLsb' p n := by
  rw [BitVec.extractLsb'_or, BitVec.extractLsb'_and, hmask, hz, BitVec.and_allOnes, BitVec.or_zero]

/-- A field outside the mask is the one merged in. -/
theorem extractLsb'_merge_of_cleared {w mask z : Word} {p n : Nat} (hmask : mask.extractLsb' p n = 0#n) :
    (w &&& mask ||| z).extractLsb' p n = z.extractLsb' p n := by
  rw [BitVec.extractLsb'_or, BitVec.extractLsb'_and, hmask, BitVec.and_zero, BitVec.zero_or]

/-- The low byte, the high byte and the upper half of a byte written low or high. -/
theorem zeroExtend_fields : ∀ v : Byte,
    ((v.zeroExtend 32).extractLsb' 0 8 = v ∧ (v.zeroExtend 32).extractLsb' 8 8 = 0#8 ∧
      (v.zeroExtend 32).extractLsb' 16 16 = 0#16) ∧
    (v.zeroExtend 32 <<< 8).extractLsb' 0 8 = 0#8 ∧ (v.zeroExtend 32 <<< 8).extractLsb' 8 8 = v ∧
      (v.zeroExtend 32 <<< 8).extractLsb' 16 16 = 0#16 := by decide

/-- The fields of a register after a write to one of its aliases (R24). -/
theorem Registers.set8_parent_fields (x : Registers) (j : Reg8) (v : Byte) :
    ((x.set8 j v).get j.parent).extractLsb' 0 8 = (if j.high then (x.get j.parent).extractLsb' 0 8 else v) ∧
    ((x.set8 j v).get j.parent).extractLsb' 8 8 = (if j.high then v else (x.get j.parent).extractLsb' 8 8) ∧
    ((x.set8 j v).get j.parent).extractLsb' 16 16 = (x.get j.parent).extractLsb' 16 16 := by
  obtain ⟨⟨hlow0, hlow8, hlow16⟩, hhigh0, hhigh8, hhigh16⟩ := zeroExtend_fields v
  unfold Registers.set8
  cases j.high with
  | true =>
    simp only [if_true, get_set]
    exact ⟨extractLsb'_merge_of_kept rfl hhigh0, (extractLsb'_merge_of_cleared rfl).trans hhigh8,
      extractLsb'_merge_of_kept rfl hhigh16⟩
  | false =>
    simp only [Bool.false_eq_true, if_false, if_true, get_set]
    exact ⟨(extractLsb'_merge_of_cleared rfl).trans hlow0, extractLsb'_merge_of_kept rfl hlow8,
      extractLsb'_merge_of_kept rfl hlow16⟩

/-- An 8-bit write is read back. -/
theorem Registers.get8_set8_self (x : Registers) (j : Reg8) (v : Byte) : (x.set8 j v).get8 j = v := by
  obtain ⟨hlow, hhigh, -⟩ := x.set8_parent_fields j v
  unfold Registers.get8
  cases h : j.high <;> simp [h, hlow, hhigh]

/-- An 8-bit write changes no other alias, also not the other byte of the same register. -/
theorem Registers.get8_set8_ne (x : Registers) {j k : Reg8} (v : Byte) (h : k ≠ j) :
    (x.set8 j v).get8 k = x.get8 k := by
  by_cases hparent : k.parent = j.parent
  · have hother : k.high = !j.high := Bool.eq_not.mpr fun hhigh => h (Reg8.ext_parent_high hparent hhigh)
    obtain ⟨hlow, hhigh, -⟩ := x.set8_parent_fields j v
    unfold Registers.get8
    rw [hparent, hlow, hhigh]
    cases hj : j.high <;> simp [hother, hj]
  · simp only [Registers.get8, get_set8_parent x j v _ hparent]

/-- An 8-bit write changes no upper half. -/
theorem Registers.get_set8_upper (x : Registers) (j : Reg8) (v : Byte) (q : Reg32) :
    ((x.set8 j v).get q).extractLsb' 16 16 = (x.get q).extractLsb' 16 16 := by
  by_cases h : q = j.parent
  · subst h
    exact (x.set8_parent_fields j v).2.2
  · rw [get_set8_parent x j v q h]

/-- Settles O11: a write to an alias merges one byte into its parent, whose other fields are kept. -/
theorem registerAccess : Obligations.RegisterAccess := by
  intro x r q v j b
  refine ⟨by simp, fun h => by simp [h], rfl, rfl, rfl, rfl, rfl, rfl, rfl, rfl, x.get8_set8_self j b,
    fun k => x.get8_set8_ne b, x.get_set8_parent j b q, x.get_set8_upper j b q⟩

/-! ### Effects: registers, flags, port record, `pc` -/

/-- A register an instruction does not name is kept (R22, R24). -/
theorem effect_reg {i : Instr} {r : Reg32} (s : State) (h : i.writesReg r = false) : (i.effect s).reg r = s.reg r := by
  cases i with
  | pushR32 | pushImm8 | pushImm32 | callRel32 | ret | incR32 | movR32Imm32 | movR32Rm32 =>
    have hne : r ≠ _ := beq_eq_false_iff_ne.mp h
    simp [Instr.effect, Instr.effect.pushed, State.reg, hne]
  | popR32 d =>
    obtain ⟨hd, hesp⟩ : r ≠ d ∧ r ≠ .esp := by simpa [Instr.writesReg] using h
    simp [Instr.effect, State.reg, hd, hesp]
  | leave =>
    cases r with
    | esp | ebp => cases h
    | eax | ecx | edx | ebx | esi | edi => rfl
  | movR8Imm8 | movR8Rm8 | inAlDx => exact Registers.get_set8_parent _ _ _ _ (beq_eq_false_iff_ne.mp h)
  | addRm32Imm8 | subRm32Imm8 | incRm32 | movRm32Imm32 | addRm32R32 | movRm32R32 => exact State.storeRm32_reg s _ h
  | movRm8R8 => exact State.storeRm8_reg s _ h
  | _ => rfl

/-- Flags are kept, or an instruction that writes flags has set the four bits of a subtraction (R31). -/
theorem effect_flags_cases (i : Instr) (s : State) : (i.effect s).flags = s.flags ∨
    i.writesFlags = true ∧ ∃ a b, (i.effect s).flags = subFlags s.flags a b := by
  cases i with
  | subRm32Imm8 => exact .inr ⟨rfl, _, _, congrArg (subFlags · _ _) (State.storeRm32_flags ..)⟩
  | cmpRm32Imm8 | cmpR32Rm32 | cmpAlImm8 | cmpEaxImm32 => exact .inr ⟨rfl, _, _, rfl⟩
  | addRm32Imm8 | incRm32 | movRm32Imm32 | addRm32R32 | movRm32R32 => exact .inl (State.storeRm32_flags ..)
  | movRm8R8 => exact .inl (State.storeRm8_flags ..)
  | _ => exact .inl rfl

/-- The 28 reserved bits are kept (R33). -/
theorem effect_flags_reserved (i : Instr) (s : State) {k : Nat} (h0 : k ≠ 0) (h6 : k ≠ 6) (h7 : k ≠ 7) (h11 : k ≠ 11) :
    (i.effect s).flags.getLsbD k = s.flags.getLsbD k := by
  rcases effect_flags_cases i s with h | ⟨-, a, b, h⟩
  · rw [h]
  · rw [h, getLsbD_subFlags _ _ _ h0 h6 h7 h11]

/-- The record of port calls is kept or one longer (R263). -/
theorem effect_portEvents_cases (i : Instr) (s : State) :
    (i.effect s).portEvents = s.portEvents ∨ ∃ e, (i.effect s).portEvents = s.portEvents ++ [e] := by
  cases i with
  | inAlDx | outDxAl => exact .inr ⟨_, rfl⟩
  | addRm32Imm8 | subRm32Imm8 | incRm32 | movRm32Imm32 | addRm32R32 | movRm32R32 =>
    exact .inl (State.storeRm32_portEvents ..)
  | movRm8R8 => exact .inl (State.storeRm8_portEvents ..)
  | _ => exact .inl rfl

/-- `pc` goes to the next instruction where the instruction does not transfer control (R27, 30_encoding R83). -/
theorem effect_pc {i : Instr} (s : State) (h : i.transfersControl = false) :
    (i.effect s).pc = s.pc + BitVec.ofNat 32 (encode i).length := by
  cases i with
  | incRm32 | addRm32R32 | cmpR32Rm32 | movRm8R8 | movRm32R32 | movR8Rm8 | movR32Rm32 =>
    simp [Instr.effect, encode, encodeRm32, encodeRm8, Nat.add_comm]
  | addRm32Imm8 | subRm32Imm8 | cmpRm32Imm8 | movRm32Imm32 =>
    simp only [Instr.effect, encode, encodeRm32, State.advance_pc, State.withSubFlags_pc, State.storeRm32_pc,
      List.length_append, List.length_cons, length_encodeModRM, size_map, length_bytesOfWord, List.length_nil]
    congr 2
    omega
  | jmpRel8 | jmpRel32 | callRel32 | ret | jo | jno | jc | jnc | jz | jnz | js | jns | jl | jle => cases h
  | _ => rfl

/-! ### Stores (20_memory R54, R58) -/

/-- `m'` is `m` with the `n` bytes at `p` stored, for `some (p, n)`, or `m` itself. -/
def Memory.StoredAt (m m' : Memory) : Option (Word × Nat) → Prop
  | none => m' = m
  | some (p, n) => n = 4 ∧ (∃ v, m' = m.setWord p.toNat v) ∨ n = 1 ∧ ∃ v, m' = m.setByte p.toNat v

theorem Memory.StoredAt.byteAt_outside {m m' : Memory} {p : Word} {n : Nat} (h : m.StoredAt m' (some (p, n))) {a : Nat}
    (ha : a < p.toNat ∨ p.toNat + n ≤ a) : m'.byteAt a = m.byteAt a := by
  rcases h with ⟨rfl, v, rfl⟩ | ⟨rfl, v, rfl⟩
  · exact byteAt_setWord_ne m v ha
  · exact byteAt_setByte_ne m v (by omega)

theorem Memory.StoredAt.wf {m m' : Memory} {o : Option (Word × Nat)} (h : m.StoredAt m' o) (hw : m.wf = true)
    (hfit : ∀ p n, o = some (p, n) → m.fits p n = true) : m'.wf = true := by
  match o with
  | none =>
    cases h
    exact hw
  | some (p, n) =>
    have hpn := fits_iff.mp (hfit p n rfl)
    rcases h with ⟨rfl, v, rfl⟩ | ⟨rfl, v, rfl⟩
    · exact setWord_wf hw hpn v
    · exact setByte_wf hw hpn v

theorem storeRm32_storedAt (s : State) (rm : Rm Reg32) (v : Word) :
    s.mem.StoredAt (s.storeRm32 rm v).mem ((rm.address s).map (·, 4)) := by
  cases rm with
  | reg => rfl
  | mem m => cases m with
    | sib => rfl
    | ind | abs | disp8 | disp32 => exact .inl ⟨rfl, v, rfl⟩

theorem storeRm8_storedAt (s : State) (rm : Rm Reg8) (v : Byte) :
    s.mem.StoredAt (s.storeRm8 rm v).mem ((rm.address s).map (·, 1)) := by
  cases rm with
  | reg => rfl
  | mem m => cases m with
    | sib => rfl
    | ind | abs | disp8 | disp32 => exact .inr ⟨rfl, v, rfl⟩

/-- An instruction stores where `Instr.storesAt` says and nowhere else. -/
theorem effect_storedAt (i : Instr) (s : State) : s.mem.StoredAt (i.effect s).mem (i.storesAt s) := by
  cases i with
  | pushR32 | pushImm8 | pushImm32 | callRel32 => exact .inl ⟨rfl, _, rfl⟩
  | addRm32Imm8 | subRm32Imm8 | incRm32 | movRm32Imm32 | addRm32R32 | movRm32R32 => exact storeRm32_storedAt ..
  | movRm8R8 => exact storeRm8_storedAt ..
  | _ => rfl

theorem firstFault_append_eq_none {f g : Faults} :
    firstFault (f ++ g) = none ↔ firstFault f = none ∧ firstFault g = none := by
  rw [firstFault_append, Option.or_eq_none_iff]

theorem firstFault_outside_cons_eq_none {s : State} {a : Word} {n : Nat} {kind : AccessKind} {f : Faults} :
    firstFault (s.outside a n kind :: f) = none ↔ s.mem.fits a n = true ∧ firstFault f = none := by
  cases h : s.mem.fits a n <;> simp [State.outside, firstFault_cons, h]

theorem fits_of_accessFault {ρ : Type} {s : State} {rm : Rm ρ} {k : Nat} {kind : AccessKind}
    (h : firstFault (accessFault s rm k kind) = none) {p : Word} {n : Nat}
    (hp : (rm.address s).map (·, k) = some (p, n)) : s.mem.fits p n = true := by
  cases rm with
  | reg => cases hp
  | mem m =>
    obtain ⟨a, ha, he⟩ := Option.map_eq_some_iff.mp hp
    cases he
    simp only [accessFault, show m.address s = some p from ha, firstFault_outside_cons_eq_none] at h
    exact h.1

/-- Where no fault arises, the bytes stored are inside memory (R55). -/
theorem fits_of_storesAt {i : Instr} {s : State} (h : firstFault (i.faults s) = none) {p : Word} {n : Nat}
    (hp : i.storesAt s = some (p, n)) : s.mem.fits p n = true := by
  cases i with
  | pushR32 | pushImm8 | pushImm32 | callRel32 =>
    cases hp
    simp only [Instr.faults, firstFault_outside_cons_eq_none] at h
    simp only [h]
  | addRm32Imm8 | subRm32Imm8 =>
    obtain ⟨haccess, -⟩ := firstFault_append_eq_none.mp h
    exact fits_of_accessFault (firstFault_append_eq_none.mp haccess).2 hp
  | incRm32 | movRm32Imm32 | addRm32R32 | movRm32R32 | movRm8R8 =>
    exact fits_of_accessFault (firstFault_append_eq_none.mp h).2 hp
  | _ => cases hp

theorem effect_wf {i : Instr} {s : State} (hw : s.mem.wf = true) (h : firstFault (i.faults s) = none) :
    (i.effect s).mem.wf = true :=
  (effect_storedAt i s).wf hw fun _ _ => fits_of_storesAt h

/-! ### What a step can do (40_common_operations R120) -/

/-- Settles O52: `step` of each of the other statuses is the state itself. -/
theorem stoppedCoreStays : Obligations.StoppedCoreStays := by
  intro s hs
  unfold step
  split
  · contradiction
  all_goals rfl

/-- The outcomes of a step that has a next state: a stopped core stays; `pc` is out of range; the instruction at `pc`
ends in its effect, then the halt test is made; or a condition that is true of the state is raised. -/
theorem step_cases {s t : State} (h : step s = .next t) :
    (s.status ≠ .running ∧ t = s) ∨
    (s.status = .running ∧ s.mem.size ≤ s.pc.toNat ∧ t = s.stopOutOfRange) ∨
    (s.status = .running ∧ s.pc.toNat < s.mem.size ∧ ∃ i rest, decode s.window = .ok (i, rest) ∧
      firstFault (i.faults s) = none ∧ t = (i.effect s).haltAtZero) ∨
    (s.status = .running ∧ s.pc.toNat < s.mem.size ∧ ∃ c, c.Holds s ∧ t = s.raise c) := by
  by_cases hrun : s.status = .running
  · simp only [step, hrun, cycle] at h
    split at h
    · rename_i hpc
      exact .inr (.inl ⟨hrun, hpc, (Host.Outcome.next.inj h).symm⟩)
    · rename_i hpc
      have hin : s.pc.toNat < s.mem.size := not_le.mp hpc
      unfold runOn at h
      split at h
      · rename_i i rest hd
        cases hf : firstFault (i.faults s) with
        | none =>
          rw [exec_of_none hf, finishCycle_next] at h
          exact .inr (.inr (.inl ⟨hrun, hin, i, rest, hd, hf, (Host.Outcome.next.inj h).symm⟩))
        | some c =>
          rw [exec_of_some hf, finishCycle_next, State.haltAtZero_raise] at h
          exact .inr (.inr (.inr ⟨hrun, hin, c, faults_hold_of_decode hd c hf, (Host.Outcome.next.inj h).symm⟩))
      · rename_i r hd
        exact .inr (.inr (.inr ⟨hrun, hin, rejected_holds hd h⟩))
  · rw [stoppedCoreStays s hrun] at h
    exact .inl ⟨hrun, (Host.Outcome.next.inj h).symm⟩

/-- The halt test changes nothing but `status`. -/
theorem haltAtZero_eq (s : State) : ∃ st, s.haltAtZero = { s with status := st } := by
  rcases s.haltAtZero_cases with h | ⟨-, -, h⟩
  · exact ⟨s.status, h⟩
  · exact ⟨_, h⟩

/-- Hence, but for `status`, a step leaves the state as it was or applies the effect of one instruction that raises
nothing. -/
theorem step_effect {s t : State} (h : step s = .next t) :
    (∃ st, t = { s with status := st }) ∨
    ∃ (i : Instr) (st : Status), firstFault (i.faults s) = none ∧ t = { i.effect s with status := st } := by
  rcases step_cases h with ⟨-, rfl⟩ | ⟨-, -, rfl⟩ | ⟨-, -, i, -, -, hf, rfl⟩ | ⟨-, -, c, -, rfl⟩
  · exact .inl ⟨t.status, rfl⟩
  · exact .inl ⟨_, rfl⟩
  · obtain ⟨st, hst⟩ := haltAtZero_eq (i.effect s)
    exact .inr ⟨i, st, hf, hst⟩
  · exact .inl ⟨_, rfl⟩

/-! ### Invariants -/

/-- The halt test leaves a status that is true: running, or halted at `pc = 0` (R277). -/
theorem haltAtZero_statusTrue {s : State} (hrun : s.status = .running) : s.haltAtZero.StatusTrue := by
  rcases s.haltAtZero_cases with h | ⟨-, hpc, h⟩
  · rw [h]
    simp [State.StatusTrue, hrun]
  · rw [h]
    exact hpc

/-- Settles O57: each way a step can end leaves a status that is true. -/
theorem statusTellsTheTruth : Obligations.StatusTellsTheTruth := by
  intro s t htrue h
  rcases step_cases h with ⟨-, rfl⟩ | ⟨-, hpc, rfl⟩ | ⟨hrun, -, i, -, -, -, rfl⟩ | ⟨-, hpc, c, hc, rfl⟩
  · exact htrue
  · exact ⟨rfl, hpc⟩
  · exact haltAtZero_statusTrue ((effect_status i s).trans hrun)
  · exact ⟨hpc, (holds_raise s c c).mpr hc⟩

/-- Settles O55: the bytes an instruction stores are inside memory, and nothing writes `MEM_SIZE`. -/
theorem stepKeepsInvariant : Obligations.StepKeepsInvariant := by
  rintro s t ⟨hw, hlo, hhi⟩ h
  rcases step_effect h with ⟨st, rfl⟩ | ⟨i, st, hf, rfl⟩
  · exact ⟨⟨hw, hlo, hhi⟩, rfl⟩
  · have hsize := effect_size i s
    exact ⟨⟨effect_wf hw hf, hlo.trans_eq hsize.symm, hsize.trans_le hhi⟩, hsize⟩

/-- Words that agree in the 28 reserved bits agree under the mask of those bits (R33). -/
theorem and_reserved_eq {f g : Word}
    (h : ∀ k, k ≠ 0 → k ≠ 6 → k ≠ 7 → k ≠ 11 → f.getLsbD k = g.getLsbD k) :
    f &&& 0xFFFFF73E#32 = g &&& 0xFFFFF73E#32 := by
  refine BitVec.eq_of_getLsbD_eq fun k hk => ?_
  rw [BitVec.getLsbD_and, BitVec.getLsbD_and]
  by_cases hd : k = 0 ∨ k = 6 ∨ k = 7 ∨ k = 11
  · rcases hd with rfl | rfl | rfl | rfl <;> simp
  · simp only [not_or] at hd
    obtain ⟨h0, h6, h7, h11⟩ := hd
    rw [h k h0 h6 h7 h11]

/-- Settles O58: no effect touches a reserved bit or takes a port call back. -/
theorem reservedFlagsAndEventsPersist : Obligations.ReservedFlagsAndEventsPersist := by
  intro s t h
  rcases step_effect h with ⟨st, rfl⟩ | ⟨i, st, -, rfl⟩
  · exact ⟨rfl, .inl rfl⟩
  · exact ⟨and_reserved_eq fun k => effect_flags_reserved i s, effect_portEvents_cases i s⟩

/-! ### The state after reset (R45) -/

/-- Settles O9: the reset state is the canonical start with nothing placed, its memory listing no byte. -/
theorem resetValues : Obligations.ResetValues := by
  refine ⟨rfl, rfl, fun r hr => ?_, rfl, rfl, rfl, fun _ => rfl, rfl, if_pos ⟨by decide, .inl rfl⟩⟩
  cases r with
  | esp => contradiction
  | eax | ecx | edx | ebx | ebp | esi | edi => rfl

/-- Settles O56: an empty list of bytes is canonical, and a running status claims nothing. -/
theorem resetMeetsInvariants : Obligations.ResetMeetsInvariants :=
  ⟨⟨rfl, by decide, by decide⟩, trivial⟩

/-! ### Frames of `exec` -/

/-- Settles O45: a raise keeps every register, and an effect those the instruction does not name. -/
theorem registerFrame : Obligations.RegisterFrame := by
  intro i s t r h hr
  rcases exec_cases h with ⟨-, rfl⟩ | ⟨c, -, rfl⟩
  · exact effect_reg s hr
  · rfl

/-- Settles O46: a raise stores nothing, and an effect where `Instr.storesAt` says. -/
theorem memoryFrame : Obligations.MemoryFrame := by
  intro i s t h
  rcases exec_cases h with ⟨-, rfl⟩ | ⟨c, -, rfl⟩
  · have hstored := effect_storedAt i s
    refine ⟨effect_size i s, fun p n hp a ha => ?_, fun hnone a => ?_⟩
    · rw [hp] at hstored
      exact hstored.byteAt_outside ha
    · rw [hnone] at hstored
      exact congrArg (Memory.byteAt · a) hstored
  · exact ⟨rfl, fun _ _ _ _ _ => rfl, fun _ _ => rfl⟩

/-- Settles O47: a raise keeps the flags, and an effect keeps them or sets the four bits of a subtraction. -/
theorem flagsFrame : Obligations.FlagsFrame := by
  intro i s t h
  rcases exec_cases h with ⟨-, rfl⟩ | ⟨c, -, rfl⟩
  · refine ⟨fun hw => ?_, fun k => effect_flags_reserved i s⟩
    exact (effect_flags_cases i s).resolve_right fun ⟨hw', _⟩ => Bool.false_ne_true (hw.symm.trans hw')
  · exact ⟨fun _ => rfl, fun _ _ _ _ _ => rfl⟩

/-- Settles O49: a raise changes `status` only, and an effect keeps it and goes to the next instruction. -/
theorem sequentialPc : Obligations.SequentialPc := by
  intro i s t hi h
  rcases exec_cases h with ⟨-, rfl⟩ | ⟨c, -, rfl⟩
  · exact .inr ⟨effect_status i s, effect_pc s hi⟩
  · exact .inl ⟨c, rfl⟩

/-! ### JMP and IN -/

/-- Settles O38: the one fault is the fetch of the offset. -/
theorem jumpRule : Obligations.JumpRule := by
  intro rel8 rel32 s
  refine ⟨rfl, fun h => ?_, fun h => ?_, rfl, fun h => ?_, fun h => ?_⟩
  · exact exec_of_none (firstFault_outside_cons_eq_none.mpr ⟨h, rfl⟩)
  · exact exec_of_some (by simp [Instr.faults, State.outside, firstFault_cons, h])
  · exact exec_of_none (firstFault_outside_cons_eq_none.mpr ⟨h, rfl⟩)
  · exact exec_of_some (by simp [Instr.faults, State.outside, firstFault_cons, h])

/-- Settles O43: IN has no fault, and its effect is one `PortIn8` and a write of AL. -/
theorem inRule : Obligations.InRule := by
  rintro s v rfl
  exact ⟨rfl, exec_of_none rfl⟩

end Sys2Proof.Machine
end

section
/-! Memory and the stack: what a write leaves to be read (20_memory R54, R57), the bounds rule (R55), which pushes stay
inside memory and that a pop undoes a push (40_common_operations R127, R128), effective addresses (R132), and the frame
of the port boundary (46_port_io R263). -/

namespace Sys2Proof.Machine

/-! ### Written words (20_memory R51, R54, R57) -/

/-- A word read after a word write at the same address. -/
theorem Memory.wordAt_setWord {m : Memory} (hw : m.wf = true) {a : Nat} (ha : a + 4 ≤ m.size) (v : Word) :
    (m.setWord a v).wordAt a = v := by
  obtain ⟨h0, h1, h2, h3⟩ := byteAt_setWord hw ha v
  rw [wordAt, h0, h1, h2, h3, wordOfBytes_byteOfWord]

/-- The bytes of a written word, by their number. -/
theorem Memory.byteAt_setWord_add {m : Memory} (hw : m.wf = true) {a : Nat} (ha : a + 4 ≤ m.size) (v : Word) {k : Nat}
    (hk : k < 4) : (m.setWord a v).byteAt (a + k) = byteOfWord v k := by
  obtain ⟨h0, h1, h2, h3⟩ := byteAt_setWord hw ha v
  match k with
  | 0 => exact h0
  | 1 => exact h1
  | 2 => exact h2
  | 3 => exact h3

/-- Settles O13: bytes and words written read back, and a word is composed of its bytes by definition. -/
theorem writeThenRead : Obligations.WriteThenRead := by
  intro m a v w hw
  refine ⟨fun _ => ⟨Memory.byteAt_setByte_self hw a v, fun _ => m.byteAt_setByte_ne v⟩, fun ha => ?_, rfl⟩
  exact ⟨Memory.wordAt_setWord hw ha w, fun _ => Memory.byteAt_setWord_add hw ha w, fun _ => m.byteAt_setWord_ne w⟩

/-! ### Push and pop (40_common_operations R127, R128) -/

theorem Registers.set_set (x : Registers) (r : Reg32) (v w : Word) : (x.set r v).set r w = x.set r w := by
  cases r <;> rfl

theorem Registers.set_get (x : Registers) (r : Reg32) : x.set r (x.get r) = x := by
  cases r <;> rfl

/-- The pushes that stay inside memory: with 4 bytes below ESP in memory, or at ESP 0 in a memory of 2^32 bytes, where
`ESP - 4` wraps to the last word (R55; log 22). -/
theorem Memory.fits_sub_four_iff {m : Memory} (hsize : m.size ≤ 2 ^ 32) (p : Word) :
    m.fits (p - 4#32) 4 = true ↔ (4 ≤ p.toNat ∧ p.toNat ≤ m.size) ∨ (p = 0#32 ∧ m.size = 2 ^ 32) := by
  have hzero : p = 0#32 ↔ p.toNat = 0 := BitVec.toNat_eq
  have hsub : (p - 4#32).toNat = (2 ^ 32 - 4 + p.toNat) % 2 ^ 32 := BitVec.toNat_sub p 4#32
  have hlt := p.isLt
  rw [fits_iff, hzero, hsub]
  omega

/-- The word a push stores is at the new ESP, and the pop after it gives back that word and every register. -/
theorem State.pop32_of_push32 {s t : State} {v : Word} (hw : s.mem.wf = true) (h : s.push32 v = .ok t) :
    t.reg .esp = s.reg .esp - 4#32 ∧ t.mem.wordAt (t.reg .esp).toNat = v ∧
      ∃ u, t.pop32 = .ok (v, u) ∧ u.regs = s.regs ∧ u.mem = t.mem := by
  obtain ⟨hfit, ht⟩ := push32_eq_ok.mp h
  have hregs : t.regs = s.regs.set .esp (s.reg .esp - 4#32) := by rw [ht, setReg_regs]
  have hmem : t.mem = s.mem.setWord (s.reg .esp - 4#32).toNat v := by rw [ht, setReg_mem]
  have hesp : t.reg .esp = s.reg .esp - 4#32 := by simp [reg_eq t, hregs]
  have hword : t.mem.wordAt (t.reg .esp).toNat = v := by
    rw [hmem, hesp, Memory.wordAt_setWord hw (Memory.fits_iff.mp hfit)]
  have hfit' : t.mem.fits (t.reg .esp) 4 = true := by
    rw [hmem, hesp]
    exact hfit
  refine ⟨hesp, hword, t.setReg .esp (t.reg .esp + 4#32), pop32_eq_ok.mpr ⟨hfit', by rw [hword]⟩, ?_, rfl⟩
  rw [setReg_regs, hregs, Registers.set_set, hesp, BitVec.sub_add_cancel, reg_eq, Registers.set_get]

theorem State.exists_push32_of_fits {s : State} (v : Word) (h : s.mem.fits (s.reg .esp - 4#32) 4 = true) :
    ∃ t, s.push32 v = .ok t :=
  ⟨_, push32_eq_ok.mpr ⟨h, rfl⟩⟩

/-- Settles O16: each range of ESP is a case of `Memory.fits_sub_four_iff`. -/
theorem pushThenPop : Obligations.PushThenPop := by
  rintro s v ⟨hw, -, hsize⟩
  have hfits := Memory.fits_sub_four_iff hsize (s.reg .esp)
  refine ⟨fun hlo hhi => ?_, fun hrange hwrap => ?_, fun hzero hfull => ?_⟩
  · obtain ⟨t, hpush⟩ := State.exists_push32_of_fits v (hfits.mpr (.inl ⟨hlo, hhi⟩))
    obtain ⟨hesp, hword, u, hpop⟩ := State.pop32_of_push32 hw hpush
    exact ⟨t, u, hpush, hesp, hword, hpop⟩
  · have hout : ¬ s.mem.fits (s.reg .esp - 4#32) 4 = true := fun hfit => by
      obtain ⟨hlo, hhi⟩ := (hfits.mp hfit).resolve_right hwrap
      omega
    exact State.push32_eq_error.mpr ⟨Bool.eq_false_of_not_eq_true hout, rfl⟩
  · obtain ⟨t, hpush⟩ := State.exists_push32_of_fits v (hfits.mpr (.inr ⟨hzero, hfull⟩))
    obtain ⟨hesp, hword, -⟩ := State.pop32_of_push32 hw hpush
    rw [hzero] at hesp
    rw [hesp] at hword
    exact ⟨t, hpush, hesp, hword⟩

/-! ### The bounds rule (20_memory R55) -/

/-- Settles O12: the check and the four accessors follow `Memory.fits`, in both directions. -/
theorem accessBounds : Obligations.AccessBounds := by
  intro m a n kind v w
  refine ⟨fun hin => ?_, fun hout => ?_, fun hin => ?_, fun hin => ?_, fun hout => ?_, fun hout => ?_⟩
  · exact Memory.check_eq_ok.mpr (Memory.fits_iff.mpr hin)
  · exact Memory.check_eq_error.mpr ⟨Memory.fits_eq_false.mpr hout, rfl⟩
  · have hfit := Memory.fits_iff.mpr hin
    exact ⟨Memory.read8_eq_ok.mpr ⟨hfit, rfl⟩, Memory.write8_eq_ok.mpr ⟨hfit, rfl⟩⟩
  · have hfit := Memory.fits_iff.mpr hin
    exact ⟨Memory.read32_eq_ok.mpr ⟨hfit, rfl⟩, Memory.write32_eq_ok.mpr ⟨hfit, rfl⟩⟩
  · have hfit := Memory.fits_eq_false.mpr hout
    exact ⟨Memory.read8_eq_error.mpr ⟨hfit, rfl⟩, Memory.write8_eq_error.mpr ⟨hfit, rfl⟩⟩
  · have hfit := Memory.fits_eq_false.mpr hout
    exact ⟨Memory.read32_eq_error.mpr ⟨hfit, rfl⟩, Memory.write32_eq_error.mpr ⟨hfit, rfl⟩⟩

/-! ### Effective addresses (40_common_operations R132, R133) -/

/-- Settles O17: the address of each form is the one R132 names, and the SIB form has none. -/
theorem effectiveAddress : Obligations.EffectiveAddress := by
  intro s reg b d8 d32 mode sib
  exact ⟨rfl, rfl, rfl, rfl, rfl⟩

/-! ### The port boundary (46_port_io R263) -/

/-- An instruction that calls the collaborator adds one call to the record. -/
theorem effect_portEvents_of_callsPort {i : Instr} (s : State) (h : i.callsPort = true) :
    ∃ e, (i.effect s).portEvents = s.portEvents ++ [e] := by
  cases i with
  | inAlDx | outDxAl => exact ⟨_, rfl⟩
  | _ => cases h

/-- Any other instruction keeps the three fields of the port boundary. -/
theorem effect_ports_of_not_callsPort {i : Instr} (s : State) (h : i.callsPort = false) :
    (i.effect s).portEvents = s.portEvents ∧ (i.effect s).portAnswers = s.portAnswers ∧
      (i.effect s).portReads = s.portReads := by
  cases i with
  | inAlDx | outDxAl => cases h
  | addRm32Imm8 | subRm32Imm8 | incRm32 | movRm32Imm32 | addRm32R32 | movRm32R32 =>
    exact ⟨State.storeRm32_portEvents .., State.storeRm32_portAnswers .., State.storeRm32_portReads ..⟩
  | movRm8R8 => exact ⟨State.storeRm8_portEvents .., State.storeRm8_portAnswers .., State.storeRm8_portReads ..⟩
  | _ => exact ⟨rfl, rfl, rfl⟩

/-- IN and OUT can raise nothing (R260, R261). -/
theorem faults_of_callsPort {i : Instr} (s : State) (h : i.callsPort = true) : i.faults s = [] := by
  cases i with
  | inAlDx | outDxAl => rfl
  | _ => cases h

/-- Settles O48: IN and OUT always complete, with one call; a raise and every other effect keep the port fields. -/
theorem portFrame : Obligations.PortFrame := by
  intro i s t h
  rcases exec_cases h with ⟨-, rfl⟩ | ⟨c, hc, rfl⟩
  · exact ⟨effect_portEvents_of_callsPort s, effect_ports_of_not_callsPort s⟩
  · refine ⟨fun hcalls => ?_, fun _ => ⟨rfl, rfl, rfl⟩⟩
    rw [faults_of_callsPort s hcalls] at hc
    cases hc

end Sys2Proof.Machine
end

section
/-! The decoder and the encoder are inverse to each other (30_encoding R81, R84, R90, R104). -/

namespace Sys2Proof

/-! ### The handler of an instruction (30_encoding R85, R101) -/

/-- The handler that reads an instruction: one for each row of R100, and one for each group of R102. -/
def Instr.handler : Instr → Handler
  | .pushR32 r => .pushR32 r.toBits
  | .popR32 r => .popR32 r.toBits
  | .incR32 r => .incR32 r.toBits
  | .movR32Imm32 r _ => .movR32Imm32 r.toBits
  | .movR8Imm8 r _ => .movR8Imm8 r.toBits
  | .pushImm8 _ => .pushImm8
  | .pushImm32 _ => .pushImm32
  | .addRm32Imm8 _ _ | .subRm32Imm8 _ _ | .cmpRm32Imm8 _ _ => .group83
  | .incRm32 _ => .groupFF
  | .movRm32Imm32 _ _ => .groupC7
  | .addRm32R32 _ _ => .addRm32R32
  | .cmpR32Rm32 _ _ => .cmpR32Rm32
  | .movRm8R8 _ _ => .movRm8R8
  | .movRm32R32 _ _ => .movRm32R32
  | .movR8Rm8 _ _ => .movR8Rm8
  | .movR32Rm32 _ _ => .movR32Rm32
  | .cmpAlImm8 _ => .cmpAlImm8
  | .cmpEaxImm32 _ => .cmpEaxImm32
  | .jmpRel8 _ => .jmpRel8
  | .jmpRel32 _ => .jmpRel32
  | .callRel32 _ => .callRel32
  | .ret => .ret
  | .leave => .leave
  | .jo _ => .jo
  | .jno _ => .jno
  | .jc _ => .jc
  | .jnc _ => .jnc
  | .jz _ => .jz
  | .jnz _ => .jnz
  | .js _ => .js
  | .jns _ => .jns
  | .jl _ => .jl
  | .jle _ => .jle
  | .inAlDx => .inAlDx
  | .outDxAl => .outDxAl

/-- An encoding starts with the opcode byte of the instruction's handler. -/
theorem encode_eq_cons (i : Instr) : encode i = i.handler.opcode :: (encode i).tail := by cases i <;> rfl

/-- The converse of `dispatch_eq_some`: the opcode byte of a handler has that handler. -/
theorem dispatch_opcode (h : Handler) : dispatch h.opcode = some h := by
  cases h with
  | incR32 r | pushR32 r | popR32 r | movR8Imm8 r | movR32Imm32 r => simp [Handler.opcode, dispatch_regOpcode r]
  | _ => rfl

theorem decode_of_dispatch {op : Byte} {h : Handler} (e : dispatch op = some h) (bs : List Byte) :
    decode (op :: bs) = decodeOperands h bs := by
  simp [decode, e]

theorem decode_of_unmapped {op : Byte} (e : dispatch op = none) (bs : List Byte) :
    decode (op :: bs) = .error (.opcode op) := by
  simp [decode, e]

/-! ### Both directions -/

/-- The handler of a well-formed instruction reads its operands back from the bytes after the opcode. -/
theorem decodeOperands_encode {i : Instr} (hw : i.wellFormed = true) (rest : List Byte) :
    decodeOperands i.handler ((encode i).tail ++ rest) = .ok (i, rest) := by
  cases i with
  | pushR32 | popR32 | incR32 | ret | leave | inAlDx | outDxAl | movR8Imm8 | pushImm8 | cmpAlImm8 | jmpRel8 | jo | jno
  | jc | jnc | jz | jnz | js | jns | jl | jle | movR32Imm32 | pushImm32 | cmpEaxImm32 | jmpRel32 | callRel32 =>
    simp [Instr.handler, encode, decodeOperands]
  | addRm32R32 rm | cmpR32Rm32 _ rm | movRm32R32 rm | movR32Rm32 _ rm | movRm8R8 rm | movR8Rm8 _ rm =>
    simp only [Instr.wellFormed] at hw
    simp [Instr.handler, encode, encodeRm32, encodeRm8, decodeOperands, withModRM_encode, hw]
  | addRm32Imm8 rm | subRm32Imm8 rm | cmpRm32Imm8 rm =>
    simp only [Instr.wellFormed] at hw
    simp [Instr.handler, encode, encodeRm32, decodeOperands, withModRM_encode, hw, decodeGroup83]
  | incRm32 rm =>
    simp only [Instr.wellFormed] at hw
    simp [Instr.handler, encode, encodeRm32, decodeOperands, withModRM_encode, hw, decodeGroupFF]
  | movRm32Imm32 rm =>
    simp only [Instr.wellFormed] at hw
    simp [Instr.handler, encode, encodeRm32, decodeOperands, withModRM_encode, hw, decodeGroupC7]

/-- Settles O1: the opcode byte selects the instruction's handler, which reads the operands back. -/
theorem decodeOfEncode : Obligations.DecodeOfEncode := by
  intro i rest hw
  rw [encode_eq_cons, List.cons_append, decode_of_dispatch (dispatch_opcode _)]
  exact decodeOperands_encode hw rest

/-- Settles O2: it is `encode_of_decode`, a case analysis on the handler of the first byte. -/
theorem encodeOfDecode : Obligations.EncodeOfDecode := fun _ _ _ => encode_of_decode

/-- Settles O3: the decoder runs on each of the words. -/
theorem specWordsDecode : Obligations.SpecWordsDecode := by
  unfold Obligations.SpecWordsDecode
  refine ⟨?_, ?_, ?_, ?_, ?_, ?_, ?_, ?_, ?_, ?_, ?_, ?_⟩ <;> rfl

end Sys2Proof
end

section
/-! The opcode table: which rows match the first two bytes of a string, and what the decoder answers on them
(30_encoding R102, R104, R110). -/

namespace Sys2Proof

open Machine (unassignedSubOpcode)

/-! ### Rows, byte by byte -/

theorem eq_iff_bytes_eq (x y : BitVec 16) :
    x = y ↔ x.extractLsb' 0 8 = y.extractLsb' 0 8 ∧ x.extractLsb' 8 8 = y.extractLsb' 8 8 := by
  have whole : ∀ z : BitVec 16, z.extractLsb' 8 8 ++ z.extractLsb' 0 8 = z := fun z =>
    (BitVec.extractLsb'_append_extractLsb'_eq_extractLsb' rfl).trans BitVec.extractLsb'_eq_self
  refine ⟨fun h => h ▸ ⟨rfl, rfl⟩, fun ⟨hlow, hhigh⟩ => ?_⟩
  rw [← whole x, hlow, hhigh, whole]

/-- A row is matched byte by byte: the opcode byte under the low byte of the mask, the next one under the high byte. -/
theorem rowSelects_append (row : BitVec 16 × BitVec 16) (b0 b1 : Byte) : rowSelects row (b1 ++ b0) ↔
    b0 &&& row.2.extractLsb' 0 8 = row.1.extractLsb' 0 8 ∧ b1 &&& row.2.extractLsb' 8 8 = row.1.extractLsb' 8 8 := by
  rw [rowSelects, eq_iff_bytes_eq, BitVec.extractLsb'_and, BitVec.extractLsb'_and,
    BitVec.extractLsb'_append_eq_of_add_le le_rfl, BitVec.extractLsb'_append_eq_of_le le_rfl,
    BitVec.extractLsb'_eq_self, BitVec.extractLsb'_eq_self]

/-- The mask of a whole opcode byte. -/
theorem and_opcodeMask (b : Byte) : b &&& 255#8 = b := BitVec.and_allOnes

/-- The mask of a register-coded opcode byte keeps its base (R84). -/
theorem regOpcode_and_baseMask : ∀ r : BitVec 3,
    regOpcode 0x40#8 r &&& 248#8 = 64#8 ∧ regOpcode 0x50#8 r &&& 248#8 = 80#8 ∧ regOpcode 0x58#8 r &&& 248#8 = 88#8 ∧
    regOpcode 0xB0#8 r &&& 248#8 = 176#8 ∧ regOpcode 0xB8#8 r &&& 248#8 = 184#8 := by decide

/-- A byte with a register-coded base is mapped, and to no group (R84, R101). -/
theorem dispatch_of_base : ∀ b : Byte, b &&& 248#8 ∈ [64#8, 80#8, 88#8, 176#8, 184#8] →
    dispatch b ≠ none ∧ b ≠ 0x83#8 ∧ b ≠ 0xFF#8 ∧ b ≠ 0xC7#8 := by decide

/-- The mask of the reg field of a ModR/M byte (R88) tells the assigned sub-opcodes. -/
theorem and_regMask_iff : ∀ b : Byte, (b &&& 56#8 = 0#8 ↔ b.extractLsb' 3 3 = 0#3) ∧
    (b &&& 56#8 = 40#8 ↔ b.extractLsb' 3 3 = 5#3) ∧ (b &&& 56#8 = 56#8 ↔ b.extractLsb' 3 3 = 7#3) := by decide

/-! ### No two rows match the same bytes -/

/-- The 37 rows of the table. -/
def tableRows : List (BitVec 16 × BitVec 16) :=
  [(0x0050, 0x00F8), (0x0058, 0x00F8), (0x0040, 0x00F8), (0x00B8, 0x00F8), (0x00B0, 0x00F8), (0x006A, 0x00FF),
    (0x0068, 0x00FF), (0x0083, 0x38FF), (0x2883, 0x38FF), (0x3883, 0x38FF), (0x00FF, 0x38FF), (0x00C7, 0x38FF),
    (0x0001, 0x00FF), (0x003B, 0x00FF), (0x0088, 0x00FF), (0x0089, 0x00FF), (0x008A, 0x00FF), (0x008B, 0x00FF),
    (0x003C, 0x00FF), (0x003D, 0x00FF), (0x00EB, 0x00FF), (0x00E9, 0x00FF), (0x00E8, 0x00FF), (0x00C3, 0x00FF),
    (0x00C9, 0x00FF), (0x0070, 0x00FF), (0x0071, 0x00FF), (0x0072, 0x00FF), (0x0073, 0x00FF), (0x0074, 0x00FF),
    (0x0075, 0x00FF), (0x0078, 0x00FF), (0x0079, 0x00FF), (0x007C, 0x00FF), (0x007E, 0x00FF), (0x00EC, 0x00FF),
    (0x00EE, 0x00FF)]

theorem tableRow_mem (i : Instr) : i.tableRow ∈ tableRows := by cases i <;> simp [Instr.tableRow, tableRows]

/-- Any two rows differ in a bit that both of them look at. -/
theorem tableRows_pairwise : tableRows.Pairwise fun p q => p.1 &&& q.2 ≠ q.1 &&& p.2 := by decide

theorem tableRow_unique {i j : Instr} {w : BitVec 16} (hi : rowSelects i.tableRow w) (hj : rowSelects j.tableRow w) :
    i.tableRow = j.tableRow := by
  have : Std.Symm fun p q : BitVec 16 × BitVec 16 => p.1 &&& q.2 ≠ q.1 &&& p.2 := ⟨fun _ _ h => h.symm⟩
  by_contra hne
  refine tableRows_pairwise.forall (tableRow_mem i) (tableRow_mem j) hne ?_
  rw [← hi, ← hj, BitVec.and_assoc, BitVec.and_assoc, BitVec.and_comm i.tableRow.2]

/-! ### Rows and the decoder -/

/-- The reg field stands in the first addressing byte (R88). -/
theorem regField_of_encodeModRM {reg : BitVec 3} {rm : Rm (BitVec 3)} {tl rest : List Byte} {b : Byte}
    (h : encodeModRM reg rm ++ tl = b :: rest) : b.extractLsb' 3 3 = reg := by
  obtain ⟨b', tl', hcons, hreg⟩ := Machine.encodeModRM_eq_cons reg rm
  rw [hcons, List.cons_append] at h
  rw [← (List.cons.inj h).1, hreg]

/-- An encoding is matched by the row of its instruction. -/
theorem rowSelects_of_encode {j : Instr} {r rest : List Byte} {b0 b1 : Byte} (h : encode j ++ r = b0 :: b1 :: rest) :
    rowSelects j.tableRow (b1 ++ b0) := by
  rw [rowSelects_append]
  rw [encode_eq_cons, List.cons_append] at h
  obtain ⟨rfl, htail⟩ := List.cons.inj h
  cases j with
  | pushR32 | popR32 | incR32 | movR32Imm32 | movR8Imm8 =>
    simp [Instr.tableRow, Instr.handler, Handler.opcode, regOpcode_and_baseMask]
  | addRm32Imm8 | subRm32Imm8 | cmpRm32Imm8 | incRm32 | movRm32Imm32 =>
    have hreg := regField_of_encodeModRM (by simpa [encode, encodeRm32] using htail)
    simp [Instr.tableRow, Instr.handler, Handler.opcode, and_regMask_iff, hreg]
  | _ => simp [Instr.tableRow, Instr.handler, Handler.opcode]

/-- A row matches no unmapped opcode byte and no unassigned sub-opcode (R102, R104). -/
theorem admitted_of_rowSelects {i : Instr} {b0 b1 : Byte} (h : rowSelects i.tableRow (b1 ++ b0)) :
    dispatch b0 ≠ none ∧ unassignedSubOpcode b0 (b1.extractLsb' 3 3) = false := by
  rw [rowSelects_append] at h
  cases i with
  | pushR32 | popR32 | incR32 | movR32Imm32 | movR8Imm8 =>
    have hbase : b0 &&& 248#8 = _ ∧ _ := h
    obtain ⟨hmapped, h83, hff, hc7⟩ := dispatch_of_base b0 (by simp [hbase.1, Instr.tableRow])
    exact ⟨hmapped, by simp [unassignedSubOpcode, h83, hff, hc7]⟩
  | addRm32Imm8 | subRm32Imm8 | cmpRm32Imm8 | incRm32 | movRm32Imm32 =>
    obtain ⟨rfl, hext⟩ : b0 = _ ∧ b1.extractLsb' 3 3 = _ := by
      simpa [Instr.tableRow, and_opcodeMask, and_regMask_iff] using h
    rw [hext]
    decide
  | _ =>
    obtain rfl : b0 = _ := by simpa [Instr.tableRow, and_opcodeMask] using h
    exact ⟨nofun, rfl⟩

/-- An unassigned sub-opcode is one of a group, whose rows have the opcode byte (R102). -/
theorem exists_rowSelects_of_unassigned {op : Byte} {ext : BitVec 3} (h : unassignedSubOpcode op ext = true) :
    ∃ (i : Instr) (b : Byte), rowSelects i.tableRow (b ++ op) := by
  have hgroup : op = 0x83#8 ∨ op = 0xFF#8 ∨ op = 0xC7#8 := by
    simp only [unassignedSubOpcode, Bool.or_eq_true, Bool.and_eq_true, beq_iff_eq] at h
    rcases h with ⟨h83, -⟩ | ⟨hff | hc7, -⟩
    · exact .inl h83
    · exact .inr (.inl hff)
    · exact .inr (.inr hc7)
  rcases hgroup with rfl | rfl | rfl
  · exact ⟨.addRm32Imm8 (.reg .eax) 0, 0, rfl⟩
  · exact ⟨.incRm32 (.reg .eax), 0, rfl⟩
  · exact ⟨.movRm32Imm32 (.reg .eax) 0, 0, rfl⟩

/-- What the decoder answers on enough bytes, in terms of the first two (R102, R104, R110). -/
theorem decode_two_bytes (b0 b1 : Byte) {rest : List Byte} (hlen : maxLength ≤ rest.length + 2) :
    (∃ j r, decode (b0 :: b1 :: rest) = .ok (j, r) ∧ rowSelects j.tableRow (b1 ++ b0)) ∨
    (decode (b0 :: b1 :: rest) = .error (.opcode b0) ∧ dispatch b0 = none) ∨
    ∃ rm, decode (b0 :: b1 :: rest) = .error (.subOpcode b0 (b1.extractLsb' 3 3) rm) ∧
      unassignedSubOpcode b0 (b1.extractLsb' 3 3) = true := by
  cases hd : decode (b0 :: b1 :: rest) with
  | ok p =>
    obtain ⟨j, r⟩ := p
    exact .inl ⟨j, r, rfl, rowSelects_of_encode (encode_of_decode hd).2⟩
  | error r =>
    rcases decode_eq_error hd with rfl | ⟨op, bs, hw, rfl, hnone⟩ | ⟨op, ext, rm, bs, hw, rfl, hun⟩
    · exact absurd hd (decode_ne_truncated hlen)
    · obtain ⟨rfl, -⟩ := List.cons.inj hw
      exact .inr (.inl ⟨rfl, hnone⟩)
    · obtain ⟨rfl, hbs⟩ := List.cons.inj hw
      obtain rfl := regField_of_encodeModRM hbs.symm
      exact .inr (.inr ⟨rm, rfl, hun⟩)

/-- A row is selected exactly when the bytes decode to an instruction of it (R110). -/
theorem rowSelects_iff_decode (i : Instr) (b0 b1 : Byte) {rest : List Byte} (hlen : maxLength ≤ rest.length + 2) :
    rowSelects i.tableRow (b1 ++ b0) ↔
      ∃ j r, decode (b0 :: b1 :: rest) = .ok (j, r) ∧ j.tableRow = i.tableRow := by
  constructor
  · intro hi
    obtain ⟨hmapped, hassigned⟩ := admitted_of_rowSelects hi
    rcases decode_two_bytes b0 b1 hlen with ⟨j, r, hd, hj⟩ | ⟨-, hnone⟩ | ⟨rm, -, hun⟩
    · exact ⟨j, r, hd, tableRow_unique hj hi⟩
    · exact absurd hnone hmapped
    · cases hassigned.symm.trans hun
  · rintro ⟨j, r, hd, hrow⟩
    exact hrow ▸ rowSelects_of_encode (encode_of_decode hd).2

/-- Settles O5: the three answers of `decode_two_bytes`, each set against what a row can match. -/
theorem tableRowsSelectInstructions : Obligations.TableRowsSelectInstructions := by
  intro b0 b1 rest hlen
  refine ⟨fun i => rowSelects_iff_decode i b0 b1 hlen, fun i j => tableRow_unique, fun hnorow => ?_⟩
  rcases decode_two_bytes b0 b1 hlen with ⟨j, r, -, hj⟩ | ⟨hd, hnone⟩ | ⟨rm, hd, hun⟩
  · exact absurd hj (hnorow j)
  · refine ⟨fun _ => hd, ?_⟩
    rintro ⟨i, b, hi⟩
    exact absurd hnone (admitted_of_rowSelects hi).1
  · refine ⟨fun hfirst => ?_, fun _ => ⟨rm, hd⟩⟩
    obtain ⟨i, b, hi⟩ := exists_rowSelects_of_unassigned hun
    exact absurd hi (hfirst i b)

end Sys2Proof
end

section
/-! The cycle of a running core with `pc` inside memory (40_common_operations R120): the opcode map (30_encoding R101),
the instruction whose bytes stand at `pc`, and that every cycle has one outcome (R107). -/

namespace Sys2Proof.Machine

/-- An operand takes at most five addressing bytes (30_encoding R93). -/
theorem size_le_five {ρ : Type} (rm : Rm ρ) : rm.size ≤ 5 := by
  cases rm with
  | reg => simp [Rm.size]
  | mem m => cases m <;> simp [Rm.size]

/-- The longest encoding has ten bytes (30_encoding R80). -/
theorem length_encode_le (i : Instr) : (encode i).length ≤ maxLength := by
  cases i with
  | addRm32Imm8 rm | subRm32Imm8 rm | cmpRm32Imm8 rm | incRm32 rm | movRm32Imm32 rm | addRm32R32 rm | cmpR32Rm32 _ rm
  | movRm8R8 rm | movRm32R32 rm | movR8Rm8 _ rm | movR32Rm32 _ rm =>
    have hrm := size_le_five rm
    simp only [encode, encodeRm32, encodeRm8, List.length_cons, List.length_append, List.length_nil,
      length_encodeModRM, size_map, length_bytesOfWord, maxLength]
    omega
  | _ => simp [encode, maxLength]

/-- An encoding that stands at `pc` is what the decoder sees first. -/
theorem encode_prefix_window {i : Instr} {s : State}
    (h : ∀ k (hk : k < (encode i).length), s.at (s.pc + BitVec.ofNat 32 k) = (encode i)[k]) : encode i <+: s.window :=
  List.prefix_iff_getElem?.mpr fun k hk => by rw [window_getElem? s (hk.trans_le (length_encode_le i)), h k hk]

/-! ### Step 4 and step 5 of the cycle (R120) -/

theorem step_of_pc_inside {s : State} (hrun : s.status = .running) (hpc : s.pc.toNat < s.mem.size) :
    step s = runOn s.window s := by
  simp [step, hrun, cycle, not_le.mpr hpc]

theorem runOn_of_decode_ok {w : List Byte} {i : Instr} {rest : List Byte} (hd : decode w = .ok (i, rest)) (s : State) :
    runOn w s = finishCycle (exec i s) := by
  simp [runOn, hd]

theorem runOn_of_decode_error {w : List Byte} {r : Reject} (hd : decode w = .error r) (s : State) :
    runOn w s = s.rejected r := by
  simp [runOn, hd]

/-- A string that is no instruction, and is not too short, raises one condition (30_encoding R104). -/
theorem rejected_total (s : State) {r : Reject} (h : r ≠ .truncated) : ∃ c, s.rejected r = .next (s.raise c) := by
  cases r with
  | truncated => exact absurd rfl h
  | opcode op => exact ⟨_, rfl⟩
  | subOpcode op ext rm =>
    simp only [State.rejected, fetchModRM_orFault]
    cases hf : firstFault (modRMFaults s rm) with
    | none => exact ⟨.unimplementedSubOpcode op ext, by rw [orFault_of_none hf]; rfl⟩
    | some c => exact ⟨c, by rw [orFault_of_some hf]; rfl⟩

/-- The bytes dispatched to no handler are those outside the 70 of the opcode map (30_encoding R101). -/
theorem dispatch_eq_none_iff : ∀ op : Byte, dispatch op = none ↔
    op.toNat ∉ [0x01, 0x3B, 0x3C, 0x3D, 0x40, 0x41, 0x42, 0x43, 0x44, 0x45, 0x46, 0x47, 0x50, 0x51, 0x52, 0x53, 0x54,
      0x55, 0x56, 0x57, 0x58, 0x59, 0x5A, 0x5B, 0x5C, 0x5D, 0x5E, 0x5F, 0x68, 0x6A, 0x70, 0x71, 0x72, 0x73, 0x74,
      0x75, 0x78, 0x79, 0x7C, 0x7E, 0x83, 0x88, 0x89, 0x8A, 0x8B, 0xB0, 0xB1, 0xB2, 0xB3, 0xB4, 0xB5, 0xB6, 0xB7,
      0xB8, 0xB9, 0xBA, 0xBB, 0xBC, 0xBD, 0xBE, 0xBF, 0xC3, 0xC7, 0xC9, 0xE8, 0xE9, 0xEB, 0xEC, 0xEE, 0xFF] := by
  decide

/-- Settles O4: the 256 bytes are gone through; an unmapped first byte is all the decoder needs. -/
theorem unmappedOpcodesStop : Obligations.UnmappedOpcodesStop := by
  refine ⟨dispatch_eq_none_iff, fun s hrun hpc hnone => ?_⟩
  obtain ⟨rest, hw, -⟩ := window_eq_cons s
  rw [step_of_pc_inside hrun hpc, hw, runOn_of_decode_error (decode_of_unmapped hnone rest)]
  rfl

/-- Settles O7: the encoding is the start of the window, and `decodeOfEncode` reads it back. -/
theorem stepRunsBytesInMemory : Obligations.StepRunsBytesInMemory := by
  intro s i hrun hpc hw hbytes
  obtain ⟨rest, hrest⟩ := encode_prefix_window hbytes
  rw [step_of_pc_inside hrun hpc, ← hrest, runOn_of_decode_ok (decodeOfEncode i rest hw)]

/-- Settles O53: what is decoded either raises nothing, and completes, or raises the first of its faults; what is not
decoded raises too. -/
theorem everyCycleHasOneOutcome : Obligations.EveryCycleHasOneOutcome := by
  intro s hrun hpc
  rw [step_of_pc_inside hrun hpc]
  cases hd : decode s.window with
  | ok p =>
    obtain ⟨i, rest⟩ := p
    rw [runOn_of_decode_ok hd]
    cases hf : firstFault (i.faults s) with
    | none =>
      refine .inl ⟨i, rest, i.effect s, rfl, (encode_of_decode hd).1, exec_of_none hf, ?_, ?_⟩
      · rw [effect_status, hrun]
      · rw [exec_of_none hf, finishCycle_next]
    | some c => exact .inr ⟨c, by rw [exec_of_some hf, finishCycle_next, State.haltAtZero_raise]; rfl⟩
  | error r =>
    have hr : r ≠ .truncated := by
      rintro rfl
      exact decode_ne_truncated (length_window s).ge hd
    obtain ⟨c, hc⟩ := rejected_total s hr
    exact .inr ⟨c, (runOn_of_decode_error hd s).trans hc⟩

end Sys2Proof.Machine
end

section
/-! No byte outside memory is used (log 3): where the decoder is shown two strings that agree on every byte inside
memory, the cycle ends the same way. The bytes are followed in the order the decoder reads them; a byte that may differ
belongs to a fetch that does not fit, so whatever it holds the outcome is the same: the fault of that fetch, an earlier
one, or a jump that is not taken (30_encoding R86, 45_conditional_jumps R240, 60_exceptions R273). -/

namespace Sys2Proof.Machine

/-! ### Two strings that agree inside memory -/

/-- What is left of two windows from byte `k` on, equal at every byte whose address is inside memory. -/
structure SameInside (s : State) (k : Nat) (bs bs' : List Byte) : Prop where
  length_left : bs.length + k = maxLength
  length_right : bs'.length + k = maxLength
  bytes : ∀ j, s.mem.fits (s.pc + BitVec.ofNat 32 (k + j)) 1 = true → bs[j]? = bs'[j]?

theorem SameInside.exists_cons {s : State} {k : Nat} {bs bs' : List Byte} (h : SameInside s k bs bs')
    (hk : k < maxLength) : ∃ b t b' t', bs = b :: t ∧ bs' = b' :: t' ∧ SameInside s (k + 1) t t' ∧
      (s.mem.fits (s.pc + BitVec.ofNat 32 k) 1 = true → b = b') := by
  obtain ⟨hl, hr, hbytes⟩ := h
  obtain ⟨b, t, rfl⟩ := List.exists_cons_of_length_pos (l := bs) (by omega)
  obtain ⟨b', t', rfl⟩ := List.exists_cons_of_length_pos (l := bs') (by omega)
  simp only [List.length_cons] at hl hr
  refine ⟨b, t, b', t', rfl, rfl, ⟨by omega, by omega, fun j hj => ?_⟩, fun hfit => ?_⟩
  · simpa using hbytes (j + 1) (by rwa [show k + (j + 1) = k + 1 + j by omega])
  · simpa using hbytes 0 hfit

/-- Each byte of an access that fits is inside memory, also where the address wraps. -/
theorem fits_byte_of_fits {s : State} {k n j : Nat} (h : s.mem.fits (s.pc + BitVec.ofNat 32 k) n = true) (hj : j < n) :
    s.mem.fits (s.pc + BitVec.ofNat 32 (k + j)) 1 = true := by
  rw [Memory.fits_iff] at h ⊢
  have hle : (s.pc + BitVec.ofNat 32 (k + j)).toNat ≤ (s.pc + BitVec.ofNat 32 k).toNat + j := by
    rw [BitVec.ofNat_add, ← BitVec.add_assoc, BitVec.toNat_add, BitVec.toNat_ofNat]
    omega
  omega

/-! ### The outcome of a cycle, from what the decoder answers -/

/-- Step 4 and step 5 of the cycle (R120) on the decoder's answer. -/
def runDecoded (s : State) : Except Reject (Instr × List Byte) → Host.Outcome State Fault Refusal
  | .ok (i, _) => finishCycle (exec i s)
  | .error r => s.rejected r

theorem runOn_eq_runDecoded (w : List Byte) (s : State) : runOn w s = runDecoded s (decode w) := rfl

theorem runDecoded_of_fault {i : Instr} {s : State} {c : Condition} (h : firstFault (i.faults s) = some c)
    (rest : List Byte) : runDecoded s (.ok (i, rest)) = .next (s.raise c) := by
  rw [runDecoded, exec_of_some h, finishCycle_next, State.haltAtZero_raise]

theorem runDecoded_subOpcode_of_fault {s : State} {rm : Rm (BitVec 3)} {c : Condition}
    (h : firstFault (modRMFaults s rm) = some c) (op : Byte) (ext : BitVec 3) :
    runDecoded s (.error (.subOpcode op ext rm)) = .next (s.raise c) := by
  simp only [runDecoded, State.rejected, fetchModRM_orFault, orFault_of_some h]
  rfl

/-- Two instructions with the same faults, and the same effect where there is none, run the same way. -/
theorem runDecoded_congr {i j : Instr} {s : State} (hfaults : i.faults s = j.faults s)
    (heffect : firstFault (i.faults s) = none → i.effect s = j.effect s) (rest rest' : List Byte) :
    runDecoded s (.ok (i, rest)) = runDecoded s (.ok (j, rest')) := by
  simp only [runDecoded, exec_eq, ← hfaults]
  cases hf : firstFault (i.faults s) with
  | none => rw [heffect hf]
  | some c => rw [orFault_of_some hf, orFault_of_some hf]

/-! ### The first fault -/

theorem firstFault_outside_of_fits {s : State} {a : Word} {n : Nat} {kind : AccessKind} {f : Faults}
    (h : s.mem.fits a n = true) : firstFault (s.outside a n kind :: f) = firstFault f := by
  simp [State.outside, firstFault_cons, h]

theorem firstFault_outside_of_not_fits {s : State} {a : Word} {n : Nat} {kind : AccessKind} {f : Faults}
    (h : s.mem.fits a n = false) : firstFault (s.outside a n kind :: f) = some (.outOfBounds a n kind) := by
  simp [State.outside, firstFault_cons, h]

/-- Every operand starts with the fetch of its ModR/M byte. -/
theorem modRMFaults_of_outside {ρ : Type} {s : State} (h : s.mem.fits (s.pc + 1#32) 1 = false) (rm : Rm ρ) :
    firstFault (modRMFaults s rm) = some (.outOfBounds (s.pc + 1#32) 1 .fetch) := by
  cases rm with
  | reg => exact firstFault_outside_of_not_fits h
  | mem m => cases m <;> exact firstFault_outside_of_not_fits h

@[simp] theorem modRMFaults_map {ρ σ : Type} (s : State) (f : ρ → σ) (rm : Rm ρ) :
    modRMFaults s (rm.map f) = modRMFaults s rm := by
  cases rm with
  | reg => rfl
  | mem m => cases m <;> rfl

/-! ### One field of the instruction -/

section
variable {s : State} {k : Nat} {bs bs' : List Byte}

/-- A byte: the same in both strings, or outside memory. -/
theorem runDecoded_withByte {f : Byte → List Byte → Except Reject (Instr × List Byte)} (h : SameInside s k bs bs')
    (hk : k < maxLength)
    (hin : ∀ b t t', SameInside s (k + 1) t t' → runDecoded s (f b t) = runDecoded s (f b t'))
    (hout : s.mem.fits (s.pc + BitVec.ofNat 32 k) 1 = false → ∀ b b' t t', SameInside s (k + 1) t t' →
      runDecoded s (f b t) = runDecoded s (f b' t')) :
    runDecoded s (withByte bs f) = runDecoded s (withByte bs' f) := by
  obtain ⟨b, t, b', t', rfl, rfl, htail, hhead⟩ := h.exists_cons hk
  cases hfit : s.mem.fits (s.pc + BitVec.ofNat 32 k) 1 with
  | false => exact hout hfit b b' t t' htail
  | true =>
    obtain rfl := hhead hfit
    exact hin b t t' htail

/-- Four bytes: the same word in both strings, or not all inside memory. -/
theorem runDecoded_withWord {f : Word → List Byte → Except Reject (Instr × List Byte)} (h : SameInside s k bs bs')
    (hk : k + 4 ≤ maxLength)
    (hin : ∀ w t t', SameInside s (k + 4) t t' → runDecoded s (f w t) = runDecoded s (f w t'))
    (hout : s.mem.fits (s.pc + BitVec.ofNat 32 k) 4 = false → ∀ w w' t t', SameInside s (k + 4) t t' →
      runDecoded s (f w t) = runDecoded s (f w' t')) :
    runDecoded s (withWord bs f) = runDecoded s (withWord bs' f) := by
  obtain ⟨b0, t, b0', t', rfl, rfl, h1, e0⟩ := h.exists_cons (by omega)
  obtain ⟨b1, t, b1', t', rfl, rfl, h2, e1⟩ := h1.exists_cons (by omega)
  obtain ⟨b2, t, b2', t', rfl, rfl, h3, e2⟩ := h2.exists_cons (by omega)
  obtain ⟨b3, t, b3', t', rfl, rfl, h4, e3⟩ := h3.exists_cons (by omega)
  cases hfit : s.mem.fits (s.pc + BitVec.ofNat 32 k) 4 with
  | false => exact hout hfit _ _ t t' h4
  | true =>
    obtain rfl := e0 (fits_byte_of_fits (j := 0) hfit (by decide))
    obtain rfl := e1 (fits_byte_of_fits (j := 1) hfit (by decide))
    obtain rfl := e2 (fits_byte_of_fits (j := 2) hfit (by decide))
    obtain rfl := e3 (fits_byte_of_fits (j := 3) hfit (by decide))
    exact hin _ t t' h4

/-- The addressing bytes: the same operand in both strings, or the fault of a fetch among them (30_encoding R90). -/
theorem runDecoded_withModRM {f : BitVec 3 → Rm (BitVec 3) → List Byte → Except Reject (Instr × List Byte)}
    (h : SameInside s 1 bs bs')
    (hin : ∀ reg rm t t', SameInside s (1 + rm.size) t t' → runDecoded s (f reg rm t) = runDecoded s (f reg rm t'))
    (hout : ∀ reg rm t c, t.length + (1 + rm.size) = maxLength → firstFault (modRMFaults s rm) = some c →
      runDecoded s (f reg rm t) = .next (s.raise c)) :
    runDecoded s (withModRM bs f) = runDecoded s (withModRM bs' f) := by
  cases hfit : s.mem.fits (s.pc + 1#32) 1 with
  | false =>
    have houtside : ∀ bs : List Byte, bs.length + 1 = maxLength →
        runDecoded s (withModRM bs f) = .next (s.raise (.outOfBounds (s.pc + 1#32) 1 .fetch)) := fun bs hlen => by
      rcases withModRM_cases bs with ⟨reg, rm, rest, hw, rfl⟩ | ⟨hshort, -⟩
      · rw [withModRM_encode hw]
        refine hout reg rm rest _ ?_ (modRMFaults_of_outside hfit rm)
        simp only [List.length_append, length_encodeModRM] at hlen
        omega
      · simp only [maxLength] at hlen
        omega
    exact (houtside bs h.length_left).trans (houtside bs' h.length_right).symm
  | true =>
    have hsecond : ∀ {rm : Rm (BitVec 3)} {n : Nat} {reg : BitVec 3} {t : List Byte},
        modRMFaults s rm = [s.outside (s.pc + 1#32) 1 .fetch, s.outside (s.pc + 2#32) n .fetch] →
        s.mem.fits (s.pc + 2#32) n = false → t.length + (1 + rm.size) = maxLength →
        runDecoded s (f reg rm t) = .next (s.raise (.outOfBounds (s.pc + 2#32) n .fetch)) := fun hrm hfit2 hlen => by
      refine hout _ _ _ _ hlen ?_
      rw [hrm, firstFault_outside_of_fits hfit, firstFault_outside_of_not_fits hfit2]
    obtain ⟨b, t, b', t', rfl, rfl, htail, hhead⟩ := h.exists_cons (by decide)
    obtain rfl := hhead hfit
    simp only [withModRM, withByte_cons]
    generalize
      (if b.extractLsb' 6 2 = 0#2 then SibMode.mod0 else if b.extractLsb' 6 2 = 1#2 then .mod1 else .mod2) = mode
    split_ifs
    · exact hin _ (.reg _) t t' htail
    · exact runDecoded_withByte htail (by decide) (fun sib _ _ => hin _ (.mem (.sib _ sib)) _ _)
        fun hfit2 _ _ _ _ ht => (hsecond rfl hfit2 ht.length_left).trans (hsecond rfl hfit2 ht.length_right).symm
    · exact runDecoded_withWord htail (by decide) (fun d _ _ => hin _ (.mem (.disp32 _ d)) _ _)
        fun hfit2 _ _ _ _ ht => (hsecond rfl hfit2 ht.length_left).trans (hsecond rfl hfit2 ht.length_right).symm
    · exact runDecoded_withByte htail (by decide) (fun d _ _ => hin _ (.mem (.disp8 _ d)) _ _)
        fun hfit2 _ _ _ _ ht => (hsecond rfl hfit2 ht.length_left).trans (hsecond rfl hfit2 ht.length_right).symm
    · exact runDecoded_withWord htail (by decide) (fun d _ _ => hin _ (.mem (.abs d)) _ _)
        fun hfit2 _ _ _ _ ht => (hsecond rfl hfit2 ht.length_left).trans (hsecond rfl hfit2 ht.length_right).symm
    · exact hin _ (.mem (.ind _)) t t' htail

end

/-! ### Whole instructions -/

section
variable {s : State} {k : Nat} {bs bs' : List Byte}

/-- An instruction that ends in an 8-bit immediate, with a fault where the immediate is outside memory. -/
theorem runDecoded_imm8 {mk : Byte → Instr} (h : SameInside s k bs bs') (hk : k < maxLength)
    (hfaults : ∀ b b', (mk b).faults s = (mk b').faults s)
    (hfetch : ∀ b, firstFault ((mk b).faults s) = none → s.mem.fits (s.pc + BitVec.ofNat 32 k) 1 = true) :
    runDecoded s (withByte bs fun b t => .ok (mk b, t)) = runDecoded s (withByte bs' fun b t => .ok (mk b, t)) :=
  runDecoded_withByte h hk (fun _ _ _ _ => rfl) fun hfit b b' t t' _ =>
    runDecoded_congr (hfaults b b') (fun hnone => by cases hfit.symm.trans (hfetch b hnone)) t t'

/-- The same for a 32-bit immediate. -/
theorem runDecoded_imm32 {mk : Word → Instr} (h : SameInside s k bs bs') (hk : k + 4 ≤ maxLength)
    (hfaults : ∀ w w', (mk w).faults s = (mk w').faults s)
    (hfetch : ∀ w, firstFault ((mk w).faults s) = none → s.mem.fits (s.pc + BitVec.ofNat 32 k) 4 = true) :
    runDecoded s (withWord bs fun w t => .ok (mk w, t)) = runDecoded s (withWord bs' fun w t => .ok (mk w, t)) :=
  runDecoded_withWord h hk (fun _ _ _ _ => rfl) fun hfit w w' t t' _ =>
    runDecoded_congr (hfaults w w') (fun hnone => by cases hfit.symm.trans (hfetch w hnone)) t t'

/-- A conditional jump raises where it is taken and its offset is outside memory, and else does not use the offset
(45_conditional_jumps R240). -/
theorem runDecoded_jump {mk : Byte → Instr} (h : SameInside s 1 bs bs') {cond : Bool}
    (hfaults : ∀ b, (mk b).faults s = Instr.faults.jumpFaults s cond)
    (heffect : ∀ b, (mk b).effect s = Instr.effect.jumped s cond b) :
    runDecoded s (withByte bs fun b t => .ok (mk b, t)) = runDecoded s (withByte bs' fun b t => .ok (mk b, t)) := by
  refine runDecoded_withByte h (by decide) (fun _ _ _ _ => rfl) fun hfit b b' t t' _ =>
    runDecoded_congr ((hfaults b).trans (hfaults b').symm) (fun hnone => ?_) t t'
  rw [hfaults] at hnone
  rw [heffect, heffect]
  cases cond with
  | false => rfl
  | true => cases hfit.symm.trans (firstFault_outside_cons_eq_none.mp hnone).1

/-- Group `83`: the sub-opcode is tested after the addressing bytes, and the immediate is fetched last (42_opcode_groups
R180 to R183). -/
theorem runDecoded_group83 (h : SameInside s 1 bs bs') :
    runDecoded s (withModRM bs decodeGroup83) = runDecoded s (withModRM bs' decodeGroup83) := by
  refine runDecoded_withModRM h (fun reg rm t t' ht => ?_) fun reg rm t c ht hc => ?_
  · have hsize := size_le_five rm
    have himm : 1 + rm.size < maxLength := by
      simp only [maxLength]
      omega
    have hfetch : ∀ f : Faults, firstFault (f ++
        [s.outside (s.pc + BitVec.ofNat 32 (1 + (rm.map Reg32.ofBits).size)) 1 .fetch]) = none →
        s.mem.fits (s.pc + BitVec.ofNat 32 (1 + rm.size)) 1 = true := fun f hnone => by
      rw [firstFault_append_eq_none, firstFault_outside_cons_eq_none, size_map] at hnone
      obtain ⟨-, hfit, -⟩ := hnone
      exact hfit
    unfold decodeGroup83
    split_ifs
    · exact runDecoded_imm8 ht himm (fun _ _ => rfl) fun _ => hfetch _
    · exact runDecoded_imm8 ht himm (fun _ _ => rfl) fun _ => hfetch _
    · exact runDecoded_imm8 ht himm (fun _ _ => rfl) fun _ => hfetch _
    · rfl
  · have hsize := size_le_five rm
    simp only [maxLength] at ht
    obtain ⟨imm, t, rfl⟩ := List.exists_cons_of_length_pos (l := t) (by omega)
    simp only [decodeGroup83, withByte_cons]
    split_ifs
    · exact runDecoded_of_fault (by simp [Instr.faults, firstFault_append, hc]) t
    · exact runDecoded_of_fault (by simp [Instr.faults, firstFault_append, hc]) t
    · exact runDecoded_of_fault (by simp [Instr.faults, firstFault_append, hc]) t
    · exact runDecoded_subOpcode_of_fault hc _ _

/-- Group `FF` has no immediate (42_opcode_groups R185, R186). -/
theorem runDecoded_groupFF (h : SameInside s 1 bs bs') :
    runDecoded s (withModRM bs decodeGroupFF) = runDecoded s (withModRM bs' decodeGroupFF) := by
  refine runDecoded_withModRM h (fun reg rm t t' _ => ?_) fun reg rm t c _ hc => ?_
  · unfold decodeGroupFF
    split_ifs
    · rfl
    · rfl
  · unfold decodeGroupFF
    split_ifs
    · exact runDecoded_of_fault (by simp [Instr.faults, firstFault_append, hc]) t
    · exact runDecoded_subOpcode_of_fault hc _ _

/-- Group `C7`: the immediate is fetched after the addressing test and before the write (42_opcode_groups R187,
R188). -/
theorem runDecoded_groupC7 (h : SameInside s 1 bs bs') :
    runDecoded s (withModRM bs decodeGroupC7) = runDecoded s (withModRM bs' decodeGroupC7) := by
  refine runDecoded_withModRM h (fun reg rm t t' ht => ?_) fun reg rm t c ht hc => ?_
  · have hsize := size_le_five rm
    unfold decodeGroupC7
    split_ifs
    · refine runDecoded_imm32 ht ?_ (fun _ _ => rfl) fun _ hnone => ?_
      · simp only [maxLength]
        omega
      · simp only [Instr.faults, firstFault_append_eq_none, firstFault_outside_cons_eq_none, size_map] at hnone
        simp only [hnone]
    · rfl
  · have hsize := size_le_five rm
    simp only [maxLength] at ht
    unfold decodeGroupC7
    split_ifs
    · rcases withWord_cases t with ⟨w, t, rfl⟩ | ⟨hshort, -⟩
      · rw [withWord_bytesOfWord]
        exact runDecoded_of_fault (by simp [Instr.faults, firstFault_append, hc]) t
      · omega
    · exact runDecoded_subOpcode_of_fault hc _ _

/-- The bytes after the opcode. -/
theorem runDecoded_decodeOperands (hd : Handler) (h : SameInside s 1 bs bs') :
    runDecoded s (decodeOperands hd bs) = runDecoded s (decodeOperands hd bs') := by
  cases hd with
  | incR32 | pushR32 | popR32 | ret | leave | inAlDx | outDxAl => rfl
  | jo | jno | jc | jnc | jz | jnz | js | jns | jl | jle => exact runDecoded_jump h (fun _ => rfl) fun _ => rfl
  | cmpAlImm8 | pushImm8 | movR8Imm8 | jmpRel8 =>
    exact runDecoded_imm8 h (by decide) (fun _ _ => rfl) fun _ hnone => (firstFault_outside_cons_eq_none.mp hnone).1
  | cmpEaxImm32 | pushImm32 | movR32Imm32 | callRel32 | jmpRel32 =>
    exact runDecoded_imm32 h (by decide) (fun _ _ => rfl) fun _ hnone => (firstFault_outside_cons_eq_none.mp hnone).1
  | addRm32R32 | cmpR32Rm32 | movRm8R8 | movRm32R32 | movR8Rm8 | movR32Rm32 =>
    simp only [decodeOperands]
    refine runDecoded_withModRM h (fun _ _ _ _ _ => rfl) fun reg rm t c _ hc => ?_
    exact runDecoded_of_fault (by simp [Instr.faults, firstFault_append, hc]) t
  | group83 => exact runDecoded_group83 h
  | groupFF => exact runDecoded_groupFF h
  | groupC7 => exact runDecoded_groupC7 h

/-- The opcode byte, which is inside memory, and what it selects. -/
theorem runOn_eq_of_sameInside {w w' : List Byte} (h : SameInside s 0 w w')
    (hpc : s.mem.fits (s.pc + BitVec.ofNat 32 0) 1 = true) : runOn w s = runOn w' s := by
  obtain ⟨op, t, op', t', rfl, rfl, ht, hop⟩ := h.exists_cons (by decide)
  obtain rfl := hop hpc
  rw [runOn_eq_runDecoded, runOn_eq_runDecoded]
  cases hd : dispatch op with
  | none => rw [decode_of_unmapped hd, decode_of_unmapped hd]
  | some handler =>
    rw [decode_of_dispatch hd, decode_of_dispatch hd]
    exact runDecoded_decodeOperands handler ht

end

/-- Settles O8: the strings agree inside memory, and the opcode byte is inside. -/
theorem bytesOutsideMemoryNeverMatter : Obligations.BytesOutsideMemoryNeverMatter := by
  intro s w hpc hlen hsame
  refine runOn_eq_of_sameInside ⟨hlen, length_window s, fun j hj => ?_⟩ ?_
  · rw [Nat.zero_add] at hj
    by_cases hlt : j < maxLength
    · exact hsame j hlt hj
    · rw [List.getElem?_eq_none (by omega), List.getElem?_eq_none (by rw [length_window]; omega)]
  · rw [BitVec.add_zero, Memory.fits_iff]
    exact hpc

end Sys2Proof.Machine
end

section
/-! The flags engine as the source states it (40_common_operations R124, R126), the cycle around `exec` (R120) and what
it leaves of a fatal condition (60_exceptions R272), and the rules of the single instructions (files 41 to 45). Each rule
is `exec_eq` read for one instruction: its faults in order, and its effect where none arises. -/

namespace Sys2Proof.Machine

/-! ### The flags engine (R124, R126) -/

/-- Settles O14: each bit `subFlags` writes is a bit of the difference, and the others are not touched. -/
theorem subFlagsLaw : Obligations.SubFlagsLaw := by
  intro f a b
  refine ⟨subResult_eq a b, ?_, ?_, ?_, ?_, fun i => getLsbD_subFlags f a b⟩
  · exact (isCarry_subFlags f a b).trans (subCarry_eq a b)
  · exact (isZero_subFlags f a b).trans (subZero_eq a b)
  · exact (isSign_subFlags f a b).trans (subSign_eq a b)
  · exact (isOverflow_subFlags f a b).trans (subOverflow_eq a b)

/-- After `SubFlags`, "less" is the signed order, also where the subtraction overflows. -/
theorem isLess_subFlags (f a b : Word) : isLess (subFlags f a b) = decide (a.toInt < b.toInt) := by
  rw [isLess, isSign_subFlags, isOverflow_subFlags, subSign_ne_subOverflow]

/-- "Less or equal" is "less" or equality of the words, and words are equal when they are equal as signed numbers. -/
theorem isLessOrEqual_subFlags (f a b : Word) : isLessOrEqual (subFlags f a b) = decide (a.toInt ≤ b.toInt) := by
  rw [isLessOrEqual, isLess_subFlags, isZero_subFlags, subZero_eq, ← Bool.decide_or, decide_eq_decide,
    ← BitVec.toInt_inj, le_iff_eq_or_lt]

/-- Settles O15: the definitions of the two conditions, and the signed order they are after `SubFlags`. -/
theorem signedConditions : Obligations.SignedConditions := fun f a b =>
  ⟨rfl, rfl, isLess_subFlags f a b, isLessOrEqual_subFlags f a b⟩

/-! ### The cycle (R120, R272, R277, R278) -/

/-- The halt test as the rule words it (R277). -/
theorem haltAtZero_eq_ite (t : State) :
    t.haltAtZero = if t.status = .running ∧ t.pc = 0#32 then { t with status := .haltNormal } else t := by
  split
  · rename_i h
    obtain ⟨hrun, hpc⟩ := h
    simp [State.haltAtZero, hrun, hpc]
  · rename_i h
    exact t.haltAtZero_cases.resolve_right fun ⟨hrun, hpc, _⟩ => h ⟨hrun, hpc⟩

/-- Settles O6: inside memory a cycle is `runOn` of the window, which is `exec` and the halt test. -/
theorem stepRunsDecodedInstruction : Obligations.StepRunsDecodedInstruction := by
  intro s i rest hrun hpc hd
  have hstep : step s = finishCycle (exec i s) := by rw [step_of_pc_inside hrun hpc, runOn_of_decode_ok hd]
  refine ⟨hstep, fun t ht => ?_⟩
  rw [hstep, ht, finishCycle_next, haltAtZero_eq_ite]

/-- Settles O50: the range test comes first in the cycle. -/
theorem pcOutOfRangeStops : Obligations.PcOutOfRangeStops := by
  intro s hrun hpc
  simp only [step, hrun, cycle, if_pos hpc, State.stopOutOfRange]

/-- The halt test makes no status fatal. -/
theorem haltAtZero_status_ne_fatal {s : State} (hrun : s.status = .running) (c : Condition) :
    s.haltAtZero.status ≠ .fatal c := by
  rcases s.haltAtZero_cases with h | ⟨-, -, h⟩
  · simp [h, hrun]
  · simp [h]

/-- Settles O54: of the ways a step of a running core can end, only a raise leaves a fatal status. -/
theorem fatalCommitsNothing : Obligations.FatalCommitsNothing := by
  intro s t c hrun h hfatal
  rcases step_cases h with ⟨hstopped, -⟩ | ⟨-, -, rfl⟩ | ⟨-, -, i, -, -, -, rfl⟩ | ⟨-, -, d, -, rfl⟩
  · exact absurd hrun hstopped
  · cases hfatal
  · exact absurd hfatal (haltAtZero_status_ne_fatal ((effect_status i s).trans hrun) c)
  · cases hfatal
    rfl

/-! ### The rule of an instruction, from its faults and its effect -/

/-- The effect where no fault arises, and the first fault and nothing else where one does (60_exceptions R273). -/
theorem exec_rule (i : Instr) (s : State) {t : State} (ht : i.effect s = t) :
    (firstFault (i.faults s) = none → exec i s = .next t) ∧
      ∀ c, firstFault (i.faults s) = some c → exec i s = .next { s with status := .fatal c } :=
  ⟨fun h => ht ▸ exec_of_none h, fun _ h => exec_of_some h⟩

/-- An instruction whose one fault is an access out of bounds completes exactly when the access fits. -/
theorem exec_rule_of_one_access (i : Instr) (s : State) {a : Word} {n : Nat} {kind : AccessKind}
    (hf : i.faults s = [s.outside a n kind]) :
    (s.mem.fits a n = true → exec i s = .next (i.effect s)) ∧
      (¬ s.mem.fits a n = true → exec i s = .next { s with status := .fatal (.outOfBounds a n kind) }) := by
  refine ⟨fun h => exec_of_none ?_, fun h => exec_of_some ?_⟩
  · rw [hf, firstFault_outside_of_fits h, firstFault_nil]
  · rw [hf, firstFault_outside_of_not_fits (Bool.eq_false_of_not_eq_true h)]

/-! ### 41_register_coded_and_stack -/

/-- Settles O18: the one access is the store at `ESP - 4`. -/
theorem pushR32Rule : Obligations.PushR32Rule := fun r s => ⟨rfl, exec_rule_of_one_access (.pushR32 r) s rfl⟩

/-- Settles O19: the one access is the load at ESP. -/
theorem popR32Rule : Obligations.PopR32Rule := fun r s => ⟨rfl, exec_rule_of_one_access (.popR32 r) s rfl⟩

/-- Settles O23: for either width of the immediate, its fetch and then the store. -/
theorem pushImmediateRule : Obligations.PushImmediateRule := by
  intro imm8 imm32 s
  obtain ⟨completes8, raises8⟩ := exec_rule (.pushImm8 imm8) s rfl
  obtain ⟨completes32, raises32⟩ := exec_rule (.pushImm32 imm32) s rfl
  exact ⟨rfl, completes8, raises8, rfl, completes32, raises32⟩

/-! ### 42_opcode_groups -/

/-- Settles O24: the store of the operand keeps `pc`, from which the next instruction is counted. -/
theorem addRm32Imm8Rule : Obligations.AddRm32Imm8Rule := fun rm imm s =>
  ⟨rfl, exec_rule (.addRm32Imm8 rm imm) s (State.storeRm32_advance ..)⟩

/-- The end of SUB: the store of the operand keeps `pc` and the flags that `SubFlags` starts from. -/
theorem State.storeRm32_withSubFlags_advance (s : State) (rm : Rm Reg32) (v a b : Word) (n : Nat) :
    ((s.storeRm32 rm v).withSubFlags a b).advance n =
      { s.storeRm32 rm v with flags := subFlags s.flags a b, pc := s.pc + BitVec.ofNat 32 n } := by
  simp [State.advance, State.withSubFlags]

/-- Settles O25: the difference stored, then the flags of the same two operands. -/
theorem subRm32Imm8Rule : Obligations.SubRm32Imm8Rule := fun rm imm s =>
  ⟨rfl, exec_rule (.subRm32Imm8 rm imm) s (State.storeRm32_withSubFlags_advance ..)⟩

/-- Settles O26: faults in the order of SUB's, and nothing but flags and `pc` written. -/
theorem cmpRm32Imm8Rule : Obligations.CmpRm32Imm8Rule := fun rm imm s =>
  ⟨rfl, exec_rule (.cmpRm32Imm8 rm imm) s rfl⟩

/-- Settles O27: the operand is read and stored, with no byte fetched after it. -/
theorem incRm32Rule : Obligations.IncRm32Rule := fun rm s =>
  ⟨rfl, exec_rule (.incRm32 rm) s (State.storeRm32_advance ..)⟩

/-- Settles O28: the SIB test, the fetch of the immediate, then the store. -/
theorem movRm32Imm32Rule : Obligations.MovRm32Imm32Rule := fun rm imm s =>
  ⟨rfl, exec_rule (.movRm32Imm32 rm imm) s (State.storeRm32_advance ..)⟩

/-! ### 43_two_operand -/

/-- Settles O30: both old values are read before the store. -/
theorem addRm32R32Rule : Obligations.AddRm32R32Rule := fun rm r s =>
  ⟨rfl, exec_rule (.addRm32R32 rm r) s (State.storeRm32_advance ..)⟩

/-- Settles O31: the operand is read and nothing but flags and `pc` written. -/
theorem cmpR32Rm32Rule : Obligations.CmpR32Rm32Rule := fun r rm s =>
  ⟨rfl, exec_rule (.cmpR32Rm32 r rm) s rfl⟩

/-- Settles O32: the store of one byte keeps `pc`. -/
theorem movRm8R8Rule : Obligations.MovRm8R8Rule := fun rm r s =>
  ⟨rfl, exec_rule (.movRm8R8 rm r) s (State.storeRm8_advance ..)⟩

/-- Settles O33: the operand is stored and not read, so the access that can fail is a write. -/
theorem movRm32R32Rule : Obligations.MovRm32R32Rule := fun rm r s =>
  ⟨rfl, exec_rule (.movRm32R32 rm r) s (State.storeRm32_advance ..)⟩

/-- Settles O34: the load of one byte, then the write of the alias. -/
theorem movR8Rm8Rule : Obligations.MovR8Rm8Rule := fun r rm s =>
  ⟨rfl, exec_rule (.movR8Rm8 r rm) s rfl⟩

/-- Settles O35: the load, at an address of the old registers, then the write of the register. -/
theorem movR32Rm32Rule : Obligations.MovR32Rm32Rule := fun r rm s =>
  ⟨rfl, exec_rule (.movR32Rm32 r rm) s rfl⟩

/-- What the 32-bit flags engine says of two zero-extended bytes: their difference is never out of the signed range, so
SIGN is the unsigned order as CARRY is (R207, D15). -/
theorem subFlags_zeroExtend (f : Word) (a b : Byte) :
    isCarry (subFlags f (a.zeroExtend 32) (b.zeroExtend 32)) = decide (a.toNat < b.toNat) ∧
    isZero (subFlags f (a.zeroExtend 32) (b.zeroExtend 32)) = decide (a = b) ∧
    isSign (subFlags f (a.zeroExtend 32) (b.zeroExtend 32)) = decide (a.toNat < b.toNat) ∧
    isOverflow (subFlags f (a.zeroExtend 32) (b.zeroExtend 32)) = false := by
  have ha := a.isLt
  have hb := b.isLt
  have hanat : (a.zeroExtend 32).toNat = a.toNat := BitVec.toNat_setWidth_of_le (by decide)
  have hbnat : (b.zeroExtend 32).toNat = b.toNat := BitVec.toNat_setWidth_of_le (by decide)
  refine ⟨?_, ?_, ?_, ?_⟩
  · rw [isCarry_subFlags, subCarry_eq, hanat, hbnat]
  · rw [isZero_subFlags, subZero_eq, decide_eq_decide, BitVec.toNat_eq, hanat, hbnat, BitVec.toNat_eq]
  · rw [isSign_subFlags, subSign_eq, getLsbD_31, decide_eq_decide, BitVec.toNat_sub, hanat, hbnat]
    omega
  · rw [isOverflow_subFlags, subOverflow_eq, decide_eq_false_iff_not, BitVec.toInt_eq_toNat_of_lt (by omega),
      BitVec.toInt_eq_toNat_of_lt (by omega), hanat, hbnat]
    omega

/-- Settles O36: the one access is the fetch of the immediate; the flags are those of two zero-extended bytes. -/
theorem cmpAlImm8Rule : Obligations.CmpAlImm8Rule := by
  intro imm s
  obtain ⟨completes, raises⟩ := exec_rule_of_one_access (.cmpAlImm8 imm) s rfl
  refine ⟨rfl, completes, fun t hfit ht => ?_, raises⟩
  obtain rfl := Host.Outcome.next.inj ((completes hfit).symm.trans ht)
  exact subFlags_zeroExtend s.flags _ imm

/-- Settles O37: the one access is the fetch of the immediate. -/
theorem cmpEaxImm32Rule : Obligations.CmpEaxImm32Rule := fun imm s =>
  ⟨rfl, exec_rule_of_one_access (.cmpEaxImm32 imm) s rfl⟩

/-! ### 44_control_transfer -/

/-- Settles O39: the fetch of the offset, the store of the return address, then `pc`. -/
theorem callRule : Obligations.CallRule := fun rel s => ⟨rfl, exec_rule (.callRel32 rel) s rfl⟩

/-- Settles O40: the one access is the load at ESP. -/
theorem retRule : Obligations.RetRule := fun s => ⟨rfl, exec_rule_of_one_access .ret s rfl⟩

/-- Settles O41: the one access is the load at the old EBP. -/
theorem leaveRule : Obligations.LeaveRule := fun s => ⟨rfl, exec_rule_of_one_access .leave s rfl⟩

/-! ### 45_conditional_jumps -/

/-- The shared operation of the ten jumps (R240), for an instruction with its faults and its effect. -/
theorem exec_rule_of_jump {i : Instr} {s : State} {cond : Bool} {rel : Byte}
    (hf : i.faults s = Instr.faults.jumpFaults s cond) (he : i.effect s = Instr.effect.jumped s cond rel) :
    (cond = false → exec i s = .next { s with pc := s.pc + 2#32 }) ∧
    (cond = true → s.mem.fits (s.pc + 1#32) 1 = true →
      exec i s = .next { s with pc := s.pc + 2#32 + rel.signExtend 32 }) ∧
    (cond = true → ¬ s.mem.fits (s.pc + 1#32) 1 = true →
      exec i s = .next { s with status := .fatal (.outOfBounds (s.pc + 1#32) 1 .fetch) }) := by
  cases cond with
  | false =>
    refine ⟨fun _ => ?_, nofun, nofun⟩
    rw [exec_of_none (by rw [hf]; rfl), he]
    rfl
  | true =>
    obtain ⟨completes, raises⟩ := exec_rule_of_one_access i s hf
    exact ⟨nofun, fun _ hfit => (completes hfit).trans (congrArg _ he), fun _ => raises⟩

/-- Settles O42: each of the ten is the shared operation with its own condition. -/
theorem conditionalJumpRule : Obligations.ConditionalJumpRule := by
  intro rel s i op cond hmem
  simp only [List.mem_cons, Prod.mk.injEq, List.not_mem_nil, or_false] at hmem
  rcases hmem with ⟨rfl, rfl, rfl⟩ | ⟨rfl, rfl, rfl⟩ | ⟨rfl, rfl, rfl⟩ | ⟨rfl, rfl, rfl⟩ | ⟨rfl, rfl, rfl⟩ |
    ⟨rfl, rfl, rfl⟩ | ⟨rfl, rfl, rfl⟩ | ⟨rfl, rfl, rfl⟩ | ⟨rfl, rfl, rfl⟩ | ⟨rfl, rfl, rfl⟩
  all_goals exact ⟨rfl, exec_rule_of_jump rfl rfl⟩

end Sys2Proof.Machine
end

section
/-! The register-coded instructions without a stack access (41_register_coded_and_stack R163 to R165): INC has no fault,
and the one access of the two moves is the fetch of the immediate. -/

namespace Sys2Proof.Machine

/-- Settles O20: the instruction has no fault, so `exec` is its effect in every state. -/
theorem incR32Rule : Obligations.IncR32Rule := fun r s =>
  ⟨rfl, exec_of_none (i := .incR32 r) (s := s) firstFault_nil⟩

/-- Settles O21: the one access is the fetch of the four bytes of the immediate. -/
theorem movR32Imm32Rule : Obligations.MovR32Imm32Rule := fun r imm s =>
  ⟨rfl, exec_rule_of_one_access (.movR32Imm32 r imm) s rfl⟩

/-- Settles O22: the one access is the fetch of the byte of the immediate, whichever alias is written. -/
theorem movR8Imm8Rule : Obligations.MovR8Imm8Rule := fun r imm s =>
  ⟨rfl, exec_rule_of_one_access (.movR8Imm8 r imm) s rfl⟩

end Sys2Proof.Machine
end

section
/-! The unassigned sub-opcodes of the groups `83`, `FF` and `C7` (42_opcode_groups R184, R186, R188): the decoder reads
the addressing bytes of an operand, as many as the ModR/M byte asks for, and rejects the sub-opcode; the rejection
fetches those bytes and then stops the core (R180, 60_exceptions R273). -/

namespace Sys2Proof.Machine

/-- A ModR/M byte asks for the bytes that encode the operand after it (30_encoding R92). -/
theorem size_eq_tailLength_of_encodeModRM {reg : BitVec 3} {rm : Rm (BitVec 3)} (hw : rm.wellFormed = true) {b : Byte}
    {tl rest : List Byte} (h : encodeModRM reg rm ++ rest = b :: tl) : rm.size = 1 + tailLength b := by
  cases rm with
  | reg =>
    obtain ⟨rfl, -⟩ := List.cons.inj h
    simp [Rm.size, tailLength]
  | mem m =>
    obtain ⟨rfl, -⟩ := List.cons.inj h
    cases m with
    | ind base =>
      obtain ⟨hesp, hebp⟩ : base ≠ .esp ∧ base ≠ .ebp := by simpa [Rm.wellFormed, MemForm.wellFormed] using hw
      simp [Rm.size, tailLength, MemForm.modRM, Reg32.toBits_ne_four hesp, Reg32.toBits_ne_five hebp]
    | abs => simp [Rm.size, tailLength, MemForm.modRM]
    | disp8 base | disp32 base =>
      have hesp : base ≠ .esp := by simpa [Rm.wellFormed, MemForm.wellFormed] using hw
      simp [Rm.size, tailLength, MemForm.modRM, Reg32.toBits_ne_four hesp]
    | sib mode => cases mode <;> simp [Rm.size, tailLength, MemForm.modRM, SibMode.toMod]

/-- The fetches of the addressing bytes, by their number: the ModR/M byte, then all that follow it at once
(30_encoding R90, R92). -/
theorem modRMFaults_eq_of_size {ρ : Type} (s : State) {rm : Rm ρ} {n : Nat} (h : rm.size = 1 + n) :
    modRMFaults s rm =
      s.outside (s.pc + 1#32) 1 .fetch :: if n = 0 then [] else [s.outside (s.pc + 2#32) n .fetch] := by
  obtain rfl : n = rm.size - 1 := by omega
  cases rm with
  | reg => rfl
  | mem m => cases m <;> rfl

/-- On an unassigned sub-opcode the decoder answers the opcode byte, the reg field and the operand it read (R102). -/
theorem decode_of_unassigned {op : Byte} {ext : BitVec 3} (h : unassignedSubOpcode op ext = true)
    {rm : Rm (BitVec 3)} (hw : rm.wellFormed = true) (rest : List Byte) :
    decode (op :: (encodeModRM ext rm ++ rest)) = .error (.subOpcode op ext rm) := by
  simp only [unassignedSubOpcode, Bool.or_eq_true, Bool.and_eq_true, beq_iff_eq, bne_iff_ne, Bool.not_eq_true',
    Bool.or_eq_false_iff, beq_eq_false_iff_ne] at h
  rcases h with ⟨rfl, ⟨h0, h5⟩, h7⟩ | ⟨rfl | rfl, h0⟩
  · rw [decode_of_dispatch (h := .group83) rfl, decodeOperands, withModRM_encode hw, decodeGroup83, if_neg h0,
      if_neg h5, if_neg h7]
  · rw [decode_of_dispatch (h := .groupFF) rfl, decodeOperands, withModRM_encode hw, decodeGroupFF, if_neg h0]
  · rw [decode_of_dispatch (h := .groupC7) rfl, decodeOperands, withModRM_encode hw, decodeGroupC7, if_neg h0]

/-- The window starts with the bytes at `pc` and at `pc + 1`. -/
theorem window_eq_cons_cons (s : State) :
    ∃ rest, s.window = s.at s.pc :: s.at (s.pc + 1#32) :: rest ∧ rest.length = 8 := by
  obtain ⟨tl, hw, hlen⟩ := window_eq_cons s
  obtain ⟨b, rest, rfl⟩ := List.exists_cons_of_length_pos (l := tl) (by omega)
  have hb : b = s.at (s.pc + 1#32) := eq_at_of_window (k := 1) (by decide) (by rw [hw]; rfl)
  exact ⟨rest, by rw [hw, hb], by simpa using hlen⟩

/-- A core that meets an unassigned sub-opcode rejects it, with an operand of the size its ModR/M byte asks for. -/
theorem step_of_unassigned {s : State} (hrun : s.status = .running) (hpc : s.pc.toNat < s.mem.size)
    (h : unassignedSubOpcode (s.at s.pc) ((s.at (s.pc + 1#32)).extractLsb' 3 3) = true) :
    ∃ rm : Rm (BitVec 3), rm.size = 1 + tailLength (s.at (s.pc + 1#32)) ∧
      step s = s.rejected (.subOpcode (s.at s.pc) ((s.at (s.pc + 1#32)).extractLsb' 3 3) rm) := by
  obtain ⟨tl, hwin, hlen⟩ := window_eq_cons_cons s
  rcases withModRM_cases (s.at (s.pc + 1#32) :: tl) with ⟨reg, rm, rest, hw, hbytes⟩ | ⟨hshort, -⟩
  · obtain rfl := regField_of_encodeModRM hbytes.symm
    refine ⟨rm, size_eq_tailLength_of_encodeModRM hw hbytes.symm, ?_⟩
    rw [step_of_pc_inside hrun hpc, hwin, hbytes, runOn_of_decode_error (decode_of_unassigned h hw rest)]
  · simp only [List.length_cons] at hshort
    omega

/-- A rejected sub-opcode raises the first fault among the fetches of the addressing bytes, and itself where there is
none (42_opcode_groups R180). -/
theorem rejected_subOpcode (s : State) (op : Byte) (ext : BitVec 3) (rm : Rm (BitVec 3)) :
    s.rejected (.subOpcode op ext rm) =
      .next (s.raise ((firstFault (modRMFaults s rm)).getD (.unimplementedSubOpcode op ext))) := by
  rw [State.rejected, fetchModRM_orFault]
  cases hf : firstFault (modRMFaults s rm) with
  | none =>
    rw [orFault_of_none hf]
    rfl
  | some c =>
    rw [orFault_of_some hf]
    rfl

/-- Settles O29: the sub-opcode is rejected with its operand, and where the ModR/M byte is inside memory only the fetch
of the bytes after it can raise first. -/
theorem unassignedSubOpcodesStop : Obligations.UnassignedSubOpcodesStop := by
  intro s hrun hpc hun
  obtain ⟨rm, hsize, hstep⟩ := step_of_unassigned hrun hpc hun
  rw [hstep, rejected_subOpcode, modRMFaults_eq_of_size s hsize]
  refine ⟨fun hbyte htail => ?_, fun hbyte hne htail => ?_⟩
  · rw [firstFault_outside_of_fits hbyte]
    split_ifs with hzero
    · rfl
    · rw [firstFault_outside_of_fits (htail.resolve_left hzero)]
      rfl
  · have hout := Bool.eq_false_of_not_eq_true htail
    rw [firstFault_outside_of_fits hbyte, if_neg hne, firstFault_outside_of_not_fits hout]
    rfl

end Sys2Proof.Machine
end

section
/-! OUT (46_port_io R261): like IN it has no fault, since a port access reads no memory and the one byte of the encoding
is the opcode. -/

namespace Sys2Proof.Machine

/-- Settles O44: the instruction has no fault, so `exec` is its effect in every state: one `PortOut8` of AL, and `pc`
past the opcode byte. -/
theorem outRule : Obligations.OutRule := fun s =>
  ⟨rfl, exec_of_none (i := .outDxAl) (s := s) firstFault_nil⟩

end Sys2Proof.Machine
end

section
/-! The normal halt (60_exceptions R277): step 5 of the cycle, once an instruction has completed. -/

namespace Sys2Proof.Machine

/-- Settles O51: a step is `exec` and then the halt test (`stepRunsDecodedInstruction`), which in a state still running
asks only for its `pc`. -/
theorem pcZeroHalts : Obligations.PcZeroHalts := by
  intro s t i rest hrun hpc hd hexec ht
  obtain ⟨-, hcompletes⟩ := stepRunsDecodedInstruction s i rest hrun hpc hd
  have hstep := hcompletes t hexec
  constructor
  · intro hzero
    rw [hstep, if_pos ⟨ht, hzero⟩]
  · intro hne
    rw [hstep, if_neg fun ⟨_, hzero⟩ => hne hzero]

end Sys2Proof.Machine
end
